-- ==== Sys2Proof/Word.lean ====
section
/-!
DEFINITION. The word types of the LS-8 CORE: the byte (`XLEN` = 8, rule R5) and the nine-bit program counter word
(`PC_BITS` = 9, rules R5 and R25).
-/
namespace Sys2Proof

/-- An 8-bit unsigned value 0 to 255: a register, a memory cell, an opcode, an operand (rules R5, R7). -/
abbrev Byte := BitVec 8

/-- A value of the program counter, 9 bits (rules R20, R25; the width is the spec's decision D2, log entry 4). -/
abbrev PcWord := BitVec 9

end Sys2Proof
end

