-- ==== Sys2Proof/Syntax.lean ====
section
/-!
DEFINITION. The instruction set: the thirty mnemonics of rule R2 and the instruction type, one constructor per row of
spec/opcode_table.json, with the operand bytes rule R87 gives it.
-/
namespace Sys2Proof

/-- The closed set of thirty mnemonics (rule R2). -/
inductive Mnemonic where
  | ldi
  | add | sub | mul | div | mod | and | or | xor
  | inc | dec | not
  | cmp
  | jmp | jeq | jne | jgt | jlt
  | call | ret
  | push | pop | ld | st
  | prn | pra | hlt | nop | int | iret
  deriving DecidableEq, Repr

/-- A register-index operand: the whole operand byte, 0 to 255, neither masked nor truncated (rule R88). An index
above 7 is a term of the syntax; its instruction raises RegisterOutOfRange when it runs (rules R90, R116). -/
abbrev RegOperand := Byte

/-- An instruction with its operand bytes (rule R87). Operands stand in the order opA, opB. -/
inductive Instr where
  /-- `LDI Rr,imm` (R130): destination register, immediate byte. -/
  | ldi (dst : RegOperand) (imm : Byte)
  /-- `ADD Ra,Rb` (R143): first source and destination, second source. -/
  | add (a b : RegOperand)
  /-- `SUB Ra,Rb` (R144). -/
  | sub (a b : RegOperand)
  /-- `MUL Ra,Rb` (R145). -/
  | mul (a b : RegOperand)
  /-- `DIV Ra,Rb` (R146). -/
  | div (a b : RegOperand)
  /-- `MOD Ra,Rb` (R147). -/
  | mod (a b : RegOperand)
  /-- `AND Ra,Rb` (R148). -/
  | and (a b : RegOperand)
  /-- `OR Ra,Rb` (R149). -/
  | or (a b : RegOperand)
  /-- `XOR Ra,Rb` (R150). -/
  | xor (a b : RegOperand)
  /-- `INC Rr` (R152): source and destination. -/
  | inc (r : RegOperand)
  /-- `DEC Rr` (R153). -/
  | dec (r : RegOperand)
  /-- `NOT Rr` (R154). -/
  | not (r : RegOperand)
  /-- `CMP Ra,Rb` (R155): two sources. -/
  | cmp (a b : RegOperand)
  /-- `JMP Rr` (R181): the register holding the target address. -/
  | jmp (r : RegOperand)
  /-- `JEQ Rr` (R182). -/
  | jeq (r : RegOperand)
  /-- `JNE Rr` (R183). -/
  | jne (r : RegOperand)
  /-- `JGT Rr` (R184). -/
  | jgt (r : RegOperand)
  /-- `JLT Rr` (R185). -/
  | jlt (r : RegOperand)
  /-- `CALL Rr` (R190): the register holding the target address. -/
  | call (r : RegOperand)
  /-- `RET` (R191). -/
  | ret
  /-- `PUSH Rr` (R210): source. -/
  | push (r : RegOperand)
  /-- `POP Rr` (R211): destination. -/
  | pop (r : RegOperand)
  /-- `LD Ra,Rb` (R212): the register holding the address, the destination register. -/
  | ld (addr dst : RegOperand)
  /-- `ST Ra,Rb` (R213): the register holding the address, the register holding the value. -/
  | st (addr src : RegOperand)
  /-- `PRN Rr` (R230): source. -/
  | prn (r : RegOperand)
  /-- `PRA Rr` (R231): source. -/
  | pra (r : RegOperand)
  /-- `HLT` (R232). -/
  | hlt
  /-- `NOP` (R233). -/
  | nop
  /-- `INT Rr` (R234): the register holding the interrupt number. -/
  | int (r : RegOperand)
  /-- `IRET` (R235). -/
  | iret
  deriving DecidableEq, Repr

end Sys2Proof
end

