-- ==== Sys2Proof/Config.lean ====
section
/-!
DEFINITION. The parameters of rule R5: the values fixed for this hardware, the type of each OPEN parameter
(`OPCODE_MAP`, `MEM_INIT`), and what an unlisted address of the model's memory reads as. The default value of
`OPCODE_MAP` stands with the decoder, in Decode.lean.
-/
namespace Sys2Proof

/-- `OPCODE_MAP`, an OPEN parameter (rules R5, R85): the byte value of each mnemonic. Which maps are admitted is
`OpcodeMap.Valid` in Decode.lean. -/
abbrev OpcodeMap := Mnemonic → Byte

/-- `MEM_INIT`, an OPEN launch input (rules R5, R35, R291): the contents of every cell the loader does not write, by
address. A launch takes it as an argument (`Machine.State.launch`). -/
abbrev MemInit := Nat → Byte

namespace Config

/-- `NREG`: eight general registers, indices 0 to 7 (rule R5). -/
abbrev numRegs : Nat := 8

/-- `MEM_SIZE`: 256 cells, addresses 0 to 255 (rules R5, R50). -/
abbrev memSize : Nat := 256

/-- `SP_RESET` (rules R5, R35). -/
def spReset : Byte := 0xF4

/-- `PROGRAM_BASE`: where the program is loaded and where execution starts (rules R5, R59). -/
def programBase : Nat := 0

/-- DESIGN CHOICE (log entry 1, unsafe): what an address the memory list does not hold reads as. The spec leaves
`MEM_INIT` open; this byte is the default of the list's canonical form, hence also the contents of every cell of
`State.reset`. A launch with any other `MEM_INIT` lists its cells. -/
def memUnlisted : Byte := 0x00

end Config
end Sys2Proof
end

