-- ==== Sys2Proof/Decode.lean ====
section
/-!
DEFINITION. The opcode map (rules R82 to R86), the decoder (rules R80 to R84, R112) and the encoder, both over any
opcode map, and the host's `decodeTableWord`.
-/
namespace Sys2Proof

/-! ### The mnemonics' static descriptors -/

/-- The thirty entries of the decoder table, in the order of rule R2's closed set. -/
def Mnemonic.all : List Mnemonic :=
  [.add, .sub, .mul, .div, .mod, .inc, .dec, .and, .or, .xor, .not, .cmp, .ldi, .jmp, .jeq, .jne, .jgt, .jlt, .call,
   .ret, .push, .pop, .ld, .st, .prn, .pra, .hlt, .nop, .int, .iret]

/-- The operand count n (rule R87). -/
def Mnemonic.operandCount : Mnemonic → Nat
  | .ret | .iret | .hlt | .nop => 0
  | .inc | .dec | .not | .jmp | .jeq | .jne | .jgt | .jlt | .call | .push | .pop | .prn | .pra | .int => 1
  | .ldi | .add | .sub | .mul | .div | .mod | .and | .or | .xor | .cmp | .ld | .st => 2

/-- ALU-class: the twelve mnemonics whose opcode has bit 5 set (rules R82, R85). -/
def Mnemonic.aluClass : Mnemonic → Bool
  | .add | .sub | .mul | .div | .mod | .inc | .dec | .and | .or | .xor | .not | .cmp => true
  | .ldi | .jmp | .jeq | .jne | .jgt | .jlt | .call | .ret | .push | .pop | .ld | .st | .prn | .pra | .hlt | .nop
  | .int | .iret => false

/-! ### Opcode fields and opcode maps -/

/-- Bits 7:6 of an opcode, the operand count (rule R82). -/
def opcodeCount (op : Byte) : Nat := op.toNat / 64

/-- Bit 5 of an opcode, the ALU class (rule R82). -/
def opcodeAlu (op : Byte) : Bool := op.getLsbD 5

/-- The three constraints every value of `OPCODE_MAP` meets (rule R85): no two mnemonics share a byte, bits 7:6 are
the operand count, bit 5 is the ALU class. -/
def OpcodeMap.Valid (m : OpcodeMap) : Prop :=
  (∀ d e, m d = m e → d = e) ∧ (∀ d, opcodeCount (m d) = d.operandCount) ∧ (∀ d, opcodeAlu (m d) = d.aluClass)

/-- PRESUMED (log entry 2, unsafe): the default `OPCODE_MAP` of rule R86, which the spec takes from general knowledge
and marks OPEN (D1). The machine of `Machine.step` uses it; the decoder and the cycle take any map. -/
def defaultOpcodeMap : OpcodeMap
  | .nop => 0x00
  | .hlt => 0x01
  | .ret => 0x09
  | .iret => 0x0B
  | .pra => 0x42
  | .prn => 0x43
  | .call => 0x48
  | .int => 0x4A
  | .pop => 0x4C
  | .push => 0x4D
  | .jmp => 0x50
  | .jeq => 0x51
  | .jne => 0x52
  | .jlt => 0x53
  | .jgt => 0x54
  | .not => 0x70
  | .inc => 0x78
  | .dec => 0x79
  | .ld => 0x98
  | .ldi => 0x99
  | .st => 0x9A
  | .cmp => 0xA0
  | .add => 0xA8
  | .sub => 0xA9
  | .mul => 0xAA
  | .div => 0xAB
  | .mod => 0xAC
  | .or => 0xB1
  | .xor => 0xB2
  | .and => 0xB3

/-- The other candidate value of `OPCODE_MAP`, the later course edition that 93_implementation_defined.md I1 lists
(PRESUMED there, log entry 2). No fixed name of the model uses it. -/
def laterEditionOpcodeMap : OpcodeMap
  | .nop => 0x00
  | .hlt => 0x01
  | .ret => 0x11
  | .iret => 0x13
  | .push => 0x45
  | .pop => 0x46
  | .prn => 0x47
  | .pra => 0x48
  | .call => 0x50
  | .int => 0x52
  | .jmp => 0x54
  | .jeq => 0x55
  | .jne => 0x56
  | .jgt => 0x57
  | .jlt => 0x58
  | .inc => 0x65
  | .dec => 0x66
  | .not => 0x69
  | .ldi => 0x82
  | .ld => 0x83
  | .st => 0x84
  | .add => 0xA0
  | .sub => 0xA1
  | .mul => 0xA2
  | .div => 0xA3
  | .mod => 0xA4
  | .cmp => 0xA7
  | .and => 0xA8
  | .or => 0xAA
  | .xor => 0xAB

/-! ### The decoder -/

/-- `decode(opcode)`: the table entry of an opcode byte, none for a byte absent from the table (rule R84). -/
def decodeOpcode (m : OpcodeMap) (op : Byte) : Option Mnemonic := Mnemonic.all.find? fun d => m d == op

/-- The instruction of a mnemonic and its operand bytes (rule R87); a byte the mnemonic has no operand for is not
looked at. -/
def Mnemonic.instr : Mnemonic → Byte → Byte → Instr
  | .ldi, opA, opB => .ldi opA opB
  | .add, opA, opB => .add opA opB
  | .sub, opA, opB => .sub opA opB
  | .mul, opA, opB => .mul opA opB
  | .div, opA, opB => .div opA opB
  | .mod, opA, opB => .mod opA opB
  | .and, opA, opB => .and opA opB
  | .or, opA, opB => .or opA opB
  | .xor, opA, opB => .xor opA opB
  | .inc, opA, _ => .inc opA
  | .dec, opA, _ => .dec opA
  | .not, opA, _ => .not opA
  | .cmp, opA, opB => .cmp opA opB
  | .jmp, opA, _ => .jmp opA
  | .jeq, opA, _ => .jeq opA
  | .jne, opA, _ => .jne opA
  | .jgt, opA, _ => .jgt opA
  | .jlt, opA, _ => .jlt opA
  | .call, opA, _ => .call opA
  | .ret, _, _ => .ret
  | .push, opA, _ => .push opA
  | .pop, opA, _ => .pop opA
  | .ld, opA, opB => .ld opA opB
  | .st, opA, opB => .st opA opB
  | .prn, opA, _ => .prn opA
  | .pra, opA, _ => .pra opA
  | .hlt, _, _ => .hlt
  | .nop, _, _ => .nop
  | .int, opA, _ => .int opA
  | .iret, _, _ => .iret

/-- The operand fetch of rule R112: opA if n ≥ 1, then opB if n = 2, each by `byteAt` its offset from the opcode; the
first byte that cannot be had ends it. An operand the mnemonic lacks is given as 0 and not looked at. -/
def fetchOperands {ε : Type} (n : Nat) (byteAt : Nat → Except ε Byte) : Except ε (Byte × Byte) :=
  match n with
  | 0 => .ok (0, 0)
  | 1 =>
    match byteAt 1 with
    | .error e => .error e
    | .ok opA => .ok (opA, 0)
  | _ + 2 =>
    match byteAt 1 with
    | .error e => .error e
    | .ok opA =>
      match byteAt 2 with
      | .error e => .error e
      | .ok opB => .ok (opA, opB)

/-- Rules R111 and R112 over any source of bytes: `byteAt k` is the byte k places after the opcode, or the reason it
cannot be had; `unknown` names an opcode absent from the table, for which no operand is fetched. -/
def decodeFrom {ε : Type} (m : OpcodeMap) (unknown : Byte → ε) (byteAt : Nat → Except ε Byte) : Except ε Instr :=
  match byteAt 0 with
  | .error e => .error e
  | .ok op =>
    match decodeOpcode m op with
    | none => .error (unknown op)
    | some d =>
      match fetchOperands d.operandCount byteAt with
      | .error e => .error e
      | .ok (opA, opB) => .ok (d.instr opA opB)

/-- Why a list of bytes decodes to no instruction. -/
inductive DecodeError where
  /-- The first byte is absent from the decoder table (rules R83, R84, R90). -/
  | unknownOpcode (op : Byte)
  /-- The list ends before the byte at this offset of the instruction. -/
  | missingByte (offset : Nat)
  deriving DecidableEq, Repr

/-- The byte at an offset of a list of bytes. -/
def listByte (bytes : List Byte) (k : Nat) : Except DecodeError Byte :=
  match bytes[k]? with
  | none => .error (.missingByte k)
  | some b => .ok b

/-- The instruction a list of bytes begins with, under an opcode map (rules R80 to R84). Total, and every refusal is
by name. -/
def decodeWith (m : OpcodeMap) (bytes : List Byte) : Except DecodeError Instr :=
  decodeFrom m .unknownOpcode (listByte bytes)

/-- The decoder under the default opcode map. -/
def decode (bytes : List Byte) : Except DecodeError Instr := decodeWith defaultOpcodeMap bytes

/-! ### The encoder -/

/-- The mnemonic of an instruction. -/
def Instr.mnemonic : Instr → Mnemonic
  | .ldi _ _ => .ldi
  | .add _ _ => .add
  | .sub _ _ => .sub
  | .mul _ _ => .mul
  | .div _ _ => .div
  | .mod _ _ => .mod
  | .and _ _ => .and
  | .or _ _ => .or
  | .xor _ _ => .xor
  | .inc _ => .inc
  | .dec _ => .dec
  | .not _ => .not
  | .cmp _ _ => .cmp
  | .jmp _ => .jmp
  | .jeq _ => .jeq
  | .jne _ => .jne
  | .jgt _ => .jgt
  | .jlt _ => .jlt
  | .call _ => .call
  | .ret => .ret
  | .push _ => .push
  | .pop _ => .pop
  | .ld _ _ => .ld
  | .st _ _ => .st
  | .prn _ => .prn
  | .pra _ => .pra
  | .hlt => .hlt
  | .nop => .nop
  | .int _ => .int
  | .iret => .iret

/-- The operand bytes of an instruction, opA before opB (rules R81, R87). -/
def Instr.operands : Instr → List Byte
  | .ldi dst imm => [dst, imm]
  | .add a b => [a, b]
  | .sub a b => [a, b]
  | .mul a b => [a, b]
  | .div a b => [a, b]
  | .mod a b => [a, b]
  | .and a b => [a, b]
  | .or a b => [a, b]
  | .xor a b => [a, b]
  | .inc r => [r]
  | .dec r => [r]
  | .not r => [r]
  | .cmp a b => [a, b]
  | .jmp r => [r]
  | .jeq r => [r]
  | .jne r => [r]
  | .jgt r => [r]
  | .jlt r => [r]
  | .call r => [r]
  | .ret => []
  | .push r => [r]
  | .pop r => [r]
  | .ld addr dst => [addr, dst]
  | .st addr src => [addr, src]
  | .prn r => [r]
  | .pra r => [r]
  | .hlt => []
  | .nop => []
  | .int r => [r]
  | .iret => []

/-- The bytes of an instruction at ascending addresses: opcode, operandA, operandB (rules R55, R81). -/
def encodeWith (m : OpcodeMap) (i : Instr) : List Byte := m i.mnemonic :: i.operands

/-- The encoder under the default opcode map. -/
def encode (i : Instr) : List Byte := encodeWith defaultOpcodeMap i

/-- The length of an instruction, 1 + n bytes (rule R80). -/
def Instr.length (i : Instr) : Nat := 1 + i.mnemonic.operandCount

/-! ### The host's word -/

/-- The three bytes of a table word: bits 7:0 are the byte at pc, 15:8 the byte at pc+1, 23:16 the byte at pc+2
(spec/opcode_table.json, `source_fields`); every bit from nbits up is 0. -/
def tableBytes (nbits w : Nat) : List Byte :=
  let v := w % 2 ^ nbits
  [BitVec.ofNat 8 v, BitVec.ofNat 8 (v / 256), BitVec.ofNat 8 (v / 65536)]

/-- The instruction the decoder reads from a table word. -/
def decodeTableWord (nbits w : Nat) : Option Instr :=
  match decode (tableBytes nbits w) with
  | .ok i => some i
  | .error _ => none

end Sys2Proof
end

