-- ==== Sys2Proof/Machine/State.lean ====
section
/-!
DEFINITION. The architectural state of the CORE, exactly the pieces rule R20 lists, as plain data; the errors; the
reasons a step can stop; the state after reset (rules R35, R290).
-/
namespace Sys2Proof.Machine

/-- A general register: an index already checked to be 0 to 7 (rules R21, R22). -/
abbrev RegId := Fin Config.numRegs

/-- `RUN` (rule R31). -/
inductive RunState where
  | running
  | halted
  deriving DecidableEq, Repr

/-- An event of the output channel (rule R33): `Dec(v)` from PRN, `Chr(v)` from PRA. -/
inductive OutEvent where
  | dec (v : Byte)
  | chr (v : Byte)
  deriving DecidableEq, Repr

/-- `ERR`: the kind code (3 bits; 0 is none) and the pc of the step that failed (rule R32). -/
structure ErrReport where
  code : BitVec 3
  pc   : PcWord
  deriving DecidableEq, Repr

/-- The four errors with what `raise` is given (rules R8, R260). None of them stops the machine's step function: error
entry is a next state (`State.takeError`, rule R262). -/
inductive CoreError where
  /-- A memory access at an address above 255: opcode or operand fetch (R52, R111, R112). -/
  | addressOutOfRange (a : Nat)
  /-- A register-index operand above 7 (R22, R116). -/
  | registerOutOfRange (i : Byte)
  /-- DIV or MOD with a zero divisor register, with pc0 (R146, R147). -/
  | divideByZero (pc0 : PcWord)
  /-- An opcode byte absent from the decoder table (R84, R112). -/
  | unknownOpcode (op : Byte)
  deriving DecidableEq, Repr

/-- The memory list: (address, byte) pairs; an address it does not hold reads as `Config.memUnlisted`. Its canonical
form is `Memory.wf` in Ops.lean. -/
abbrev Memory := List Host.Cell

/-- The machine state (rule R20). -/
structure State where
  /-- General registers; `x[7]` is the stack pointer SP (R21, R23). -/
  x : Vector Byte Config.numRegs
  /-- Program counter, 9 bits (R24, R25). -/
  pc : PcWord
  /-- Flags register; bits 7:3 are hardwired to 0 (R26). Read by `State.flags`, written by `State.setFL`. -/
  fl : Byte
  /-- Interrupt-status register (R29). -/
  is : Byte
  /-- Interrupt-delivery enable (R30). -/
  ie : Bool
  /-- Engine state (R31). -/
  run : RunState
  /-- Error status (R32). -/
  err : ErrReport
  /-- The 256-byte memory (R50). -/
  mem : Memory
  /-- The output channel's events, oldest first (R33). -/
  out : List OutEvent
  deriving DecidableEq, Repr

/-- Reasons the machine stops outside the spec's own state. There is none: each of the four errors the spec names is
a next state with `RUN = Halted` and `ERR` written (rules R260, R262), and no behaviour the CORE can reach is left
without an effect. The type is closed and empty, which is safe. -/
inductive Fault
  deriving DecidableEq, Repr

/-- Reasons an instruction has no meaning in the model. -/
inductive Refusal where
  /-- Raised by an arm of `exec` whose instruction has no meaning yet; safe. No arm raises it: all thirty
  instructions have their meaning. -/
  | notModelled (mnemonic : String)
  deriving DecidableEq, Repr

/-- What one step answers. -/
abbrev StepResult := Host.Outcome State Fault Refusal

/-- The state after reset (rules R35, R290). Memory lists nothing, which stands for one value of the OPEN input
`MEM_INIT`, every cell `Config.memUnlisted` (DESIGN CHOICE, log entry 1, unsafe); `State.launch` gives the state after
reset for every `MEM_INIT`. -/
def State.reset : State where
  x := #v[0, 0, 0, 0, 0, 0, 0, Config.spReset]
  pc := BitVec.ofNat 9 Config.programBase
  fl := 0
  is := 0
  ie := true
  run := .running
  err := ⟨0, 0⟩
  mem := []
  out := []

end Sys2Proof.Machine
end

