-- ==== Sys2Proof/Machine/Ops.lean ====
section
/-!
DEFINITION. The named operations over registers, memory, the stack and the output channel (rules R8, R22, R23, R26,
R52, R53, R56), error entry (rules R262, R263) and the interrupt frame that IRET returns through (rule R235).
-/
namespace Sys2Proof.Machine

/-! ### Arithmetic -/

/-- `trunc8`: reduce a mathematical integer modulo 256 (rule R7). -/
def trunc8 (v : Int) : Byte := BitVec.ofInt 8 v

/-! ### The memory list -/

/-- The byte at an address of the memory list. -/
def Memory.read : Memory → Nat → Byte
  | [], _ => Config.memUnlisted
  | (b, w) :: m, a => if a = b then w else Memory.read m a

/-- Put a byte at an address of the memory list, keeping the canonical form: an entry that would equal what an
unlisted address reads as is removed. -/
def Memory.write : Memory → Nat → Byte → Memory
  | [], a, v => if v = Config.memUnlisted then [] else [(a, v)]
  | (b, w) :: m, a, v =>
    if a < b then
      if v = Config.memUnlisted then (b, w) :: m else (a, v) :: (b, w) :: m
    else if a = b then
      if v = Config.memUnlisted then m else (a, v) :: m
    else (b, w) :: Memory.write m a v

/-- Canonical from an address on: addresses strictly rising, within the 256 cells, and no entry equal to what an
unlisted address reads as. -/
def Memory.wfFrom : Nat → Memory → Bool
  | _, [] => true
  | lo, (a, v) :: m =>
    decide (lo ≤ a) && decide (a < Config.memSize) && decide (v ≠ Config.memUnlisted) && Memory.wfFrom (a + 1) m

/-- The canonical form of the memory list. -/
def Memory.wf (m : Memory) : Bool := Memory.wfFrom 0 m

/-! ### Access primitives -/

/-- `MemRead(a, 1)` (rule R52). -/
def memRead (a : Nat) (s : State) : Except CoreError Byte :=
  if a > 255 then .error (.addressOutOfRange a) else .ok (s.mem.read a)

/-- `MemWrite(a, 1, v)` (rule R53): the value is truncated, not checked. -/
def memWrite (a : Nat) (v : Int) (s : State) : Except CoreError State :=
  if a > 255 then .error (.addressOutOfRange a) else .ok { s with mem := s.mem.write a (trunc8 v) }

/-- A data read at an 8-bit address, which never leaves the memory (rule R58; `memRead_byte` says it is `memRead`). -/
def State.load8 (s : State) (a : Byte) : Byte := s.mem.read a.toNat

/-- A data write at an 8-bit address, which never leaves the memory (rule R58; `memWrite_byte` says it is `memWrite`).
The address it writes is `a.toNat`. -/
def State.store8 (s : State) (a : Byte) (v : Byte) : State := { s with mem := s.mem.write a.toNat v }

/-! ### Registers -/

/-- Read general register `x[r]` (rules R8, R21). None is hardwired. -/
def State.reg (s : State) (r : RegId) : Byte := s.x[r]

/-- Write general register `x[r]` (rules R8, R21). -/
def State.setReg (s : State) (r : RegId) (v : Byte) : State := { s with x := s.x.set r v }

/-- `SP_INDEX` (rules R5, R23). -/
def spId : RegId := 7

/-- The stack pointer, a name for `x[7]` (rules R8, R23). -/
def State.sp (s : State) : Byte := s.reg spId

/-- Write the stack pointer. -/
def State.setSp (s : State) (v : Byte) : State := s.setReg spId v

/-- Read FL: bits 7:3 are hardwired to 0 (rule R26). -/
def State.flags (s : State) : Byte := s.fl &&& 0x07

/-- Write FL: bits 7:3 are hardwired to 0 (rules R26, R235). -/
def State.setFL (s : State) (v : Byte) : State := { s with fl := v &&& 0x07 }

/-- Write the program counter: the CORE enforces no bound (rule R24). -/
def State.setPc (s : State) (t : PcWord) : State := { s with pc := t }

/-- A jump, call or return target: an 8-bit value zero-extended to the pc's width (rules R7, R25). -/
def pcOfByte (t : Byte) : PcWord := t.setWidth 9

/-- The advance `pc <- pc0 + 1 + n` (rule R114). `State.pc` is pc0 for the whole of the step (rule R24). -/
def State.advance (n : Nat) (s : State) : State := s.setPc (s.pc + BitVec.ofNat 9 (1 + n))

/-- Set bits of IS (rule R29). -/
def State.orIS (s : State) (bits : Byte) : State := { s with is := s.is ||| bits }

/-- `IE <- 1` (rule R30). -/
def State.enableIE (s : State) : State := { s with ie := true }

/-- `RUN <- Halted` (rule R31). -/
def State.halt (s : State) : State := { s with run := .halted }

/-- `Emit(e)`: append an event to the output channel (rules R8, R56). -/
def State.emit (s : State) (e : OutEvent) : State := { s with out := s.out ++ [e] }

/-! ### The stack -/

/-- The push's first half, `SP <- trunc8(SP - 1)` (rules R23, R190, R210). -/
def State.decSp (s : State) : State := s.setSp (trunc8 ((s.sp.toNat : Int) - 1))

/-- The pop's second half, `SP <- trunc8(SP + 1)` (rules R23, R191, R211). -/
def State.incSp (s : State) : State := s.setSp (trunc8 ((s.sp.toNat : Int) + 1))

/-! ### Errors -/

/-- `code(E)` (rules R32, R260). -/
def CoreError.code : CoreError → BitVec 3
  | .addressOutOfRange _ => 1
  | .registerOutOfRange _ => 2
  | .divideByZero _ => 3
  | .unknownOpcode _ => 4

/-- Error entry (rule R262): `RUN <- Halted`, `ERR <- (code(E), pc0)`, and nothing else. It is applied to the state the
step began with, so every staged write is discarded (rule R263). There is no return from it (rule R265). -/
def State.takeError (s : State) (e : CoreError) : State := { s with run := .halted, err := ⟨e.code, s.pc⟩ }

/-- The end of a step that began in `s` (rules R9, R118): commit the staged state, or discard it and take the error. -/
def settle (s : State) (r : Except CoreError State) : StepResult :=
  match r with
  | .ok t => .next t
  | .error e => .next (s.takeError e)

/-! ### The interrupt frame -/

/-- One pop into a general register, `x[r] <- MemRead(SP, 1) ; SP <- trunc8(SP + 1)` (rules R211, R235): SP is read
after the register write. -/
def State.popReg (s : State) (r : RegId) : State := (s.setReg r (s.load8 s.sp)).incSp

/-- One pop into FL, `FL <- MemRead(SP, 1) AND 0x07 ; SP <- trunc8(SP + 1)` (rule R235). -/
def State.popFL (s : State) : State := (s.setFL (s.load8 s.sp)).incSp

/-- One pop into pc, `pc <- MemRead(SP, 1) ; SP <- trunc8(SP + 1)` (rules R191, R235). -/
def State.popPc (s : State) : State := (s.setPc (pcOfByte (s.load8 s.sp))).incSp

/-- The return through an interrupt frame (rule R235): x[0] to x[6], then FL, then pc, then `IE <- 1`. -/
def State.returnFromInterrupt (s : State) : State :=
  ((((((((((s.popReg 0).popReg 1).popReg 2).popReg 3).popReg 4).popReg 5).popReg 6).popFL).popPc).enableIE)

end Sys2Proof.Machine
end

