-- ==== Sys2Proof/Machine/Flags.lean ====
section
/-!
DEFINITION. The flags (rules R26, R27): the comparison CMP makes (rules R140, R155) and the conditions the jumps test
(rules R181 to R185).
-/
namespace Sys2Proof.Machine

/-- The 3-bit flag result of CMP (rules R140, R155): 0b001 (E) if a = b, 0b010 (G) if a > b, 0b100 (L) if a < b,
unsigned. -/
def cmpFlags (a b : Byte) : BitVec 3 :=
  if a.toNat = b.toNat then 0b001 else if a.toNat > b.toNat then 0b010 else 0b100

/-- A jump's condition on FL (rule R180). -/
inductive Cond where
  /-- JMP (R181). -/
  | always
  /-- JEQ (R182). -/
  | equal
  /-- JNE (R183). -/
  | notEqual
  /-- JGT (R184). -/
  | greater
  /-- JLT (R185). -/
  | less
  deriving DecidableEq, Repr

/-- `cond(FL)`: E is bit 0, G bit 1, L bit 2 (rules R26, R181 to R185). -/
def Cond.holds (c : Cond) (fl : Byte) : Bool :=
  match c with
  | .always => true
  | .equal => fl.getLsbD 0
  | .notEqual => !fl.getLsbD 0
  | .greater => fl.getLsbD 1
  | .less => fl.getLsbD 2

end Sys2Proof.Machine
end

