-- ==== Sys2Proof/Machine/Operands.lean ====
section
/-!
DEFINITION. The operand forms (rules R87, R88, R116): an instruction's register-index operands are checked before its
handler runs, opA first, and the handler's writes are staged (rules R9, R118).
-/
namespace Sys2Proof.Machine

/-- The register a whole operand byte names; an index above 7 raises RegisterOutOfRange (rules R22, R88). -/
def regOf (i : RegOperand) : Except CoreError RegId :=
  if h : i.toNat < Config.numRegs then .ok ⟨i.toNat, h⟩ else .error (.registerOutOfRange i)

/-- The form with no register operand: run the handler and settle. -/
def withNone (s : State) (handler : Except CoreError State) : StepResult := settle s handler

/-- The form with one register operand, opA (rule R116). -/
def withReg (opA : RegOperand) (s : State) (handler : RegId → Except CoreError State) : StepResult :=
  settle s (match regOf opA with
    | .error e => .error e
    | .ok a => handler a)

/-- The form with two register operands: opA is checked first, then opB (rule R116). -/
def withRegReg (opA opB : RegOperand) (s : State) (handler : RegId → RegId → Except CoreError State) : StepResult :=
  settle s (match regOf opA with
    | .error e => .error e
    | .ok a =>
      match regOf opB with
      | .error e => .error e
      | .ok b => handler a b)

end Sys2Proof.Machine
end

