-- ==== Sys2Proof/Machine/Alu.lean ====
section
/-!
DEFINITION. The ALU (rules R119, R140) and the twelve ALU-class instructions (rules R142 to R155).
-/
namespace Sys2Proof.Machine

/-- The operations of the ALU (rule R119). -/
inductive AluOp where
  | add | sub | mul | div | mod | inc | dec | and | or | xor | not | cmp
  deriving DecidableEq, Repr

/-- What the ALU gives back: a result byte, a flag result, or the DivideByZero signal (rules R119, R140). -/
inductive AluResult where
  | byte (v : Byte)
  | flags (f : BitVec 3)
  | divideByZero
  deriving DecidableEq, Repr

/-- `ALU.apply(op, a, b)` (rule R140): computed over mathematical integers, then reduced. -/
def aluApply (op : AluOp) (a b : Byte) : AluResult :=
  match op with
  | .add => .byte (trunc8 ((a.toNat : Int) + b.toNat))
  | .sub => .byte (trunc8 ((a.toNat : Int) - b.toNat))
  | .mul => .byte (trunc8 ((a.toNat : Int) * b.toNat))
  | .div => if b = 0 then .divideByZero else .byte (BitVec.ofNat 8 (a.toNat / b.toNat))
  | .mod => if b = 0 then .divideByZero else .byte (BitVec.ofNat 8 (a.toNat - b.toNat * (a.toNat / b.toNat)))
  | .inc => .byte (trunc8 ((a.toNat : Int) + 1))
  | .dec => .byte (trunc8 ((a.toNat : Int) - 1))
  | .and => .byte (a &&& b)
  | .or => .byte (a ||| b)
  | .xor => .byte (a ^^^ b)
  | .not => .byte (~~~a)
  | .cmp => .flags (cmpFlags a b)

/-- The engine applies an ALU result (rule R119): a byte to the destination register, a flag result to FL; the signal
raises DivideByZero(pc0) (rules R146, R147). -/
def applyAlu (r : AluResult) (dst : RegId) (s : State) : Except CoreError State :=
  match r with
  | .byte v => .ok (s.setReg dst v)
  | .flags f => .ok (s.setFL (f.setWidth 8))
  | .divideByZero => .error (.divideByZero s.pc)

/-- The template of the register-register ALU instructions (rules R142, R155): ALU over x[opA] and x[opB], result to
opA, pc advances by 3. -/
def aluRegReg (op : AluOp) (opA opB : RegOperand) (s : State) : StepResult :=
  withRegReg opA opB s fun a b => (applyAlu (aluApply op (s.reg a) (s.reg b)) a s).map (State.advance 2)

/-- The template of INC, DEC and NOT (rule R151): ALU over x[opA] and 0, result to opA, pc advances by 2. -/
def aluReg (op : AluOp) (opA : RegOperand) (s : State) : StepResult :=
  withReg opA s fun a => (applyAlu (aluApply op (s.reg a) 0) a s).map (State.advance 1)

/-- ADD (rule R143). -/
def execAdd (opA opB : RegOperand) (s : State) : StepResult := aluRegReg .add opA opB s

/-- SUB (rule R144). -/
def execSub (opA opB : RegOperand) (s : State) : StepResult := aluRegReg .sub opA opB s

/-- MUL (rule R145). -/
def execMul (opA opB : RegOperand) (s : State) : StepResult := aluRegReg .mul opA opB s

/-- DIV (rule R146). -/
def execDiv (opA opB : RegOperand) (s : State) : StepResult := aluRegReg .div opA opB s

/-- MOD (rule R147). -/
def execMod (opA opB : RegOperand) (s : State) : StepResult := aluRegReg .mod opA opB s

/-- AND (rule R148). -/
def execAnd (opA opB : RegOperand) (s : State) : StepResult := aluRegReg .and opA opB s

/-- OR (rule R149). -/
def execOr (opA opB : RegOperand) (s : State) : StepResult := aluRegReg .or opA opB s

/-- XOR (rule R150). -/
def execXor (opA opB : RegOperand) (s : State) : StepResult := aluRegReg .xor opA opB s

/-- INC (rule R152). -/
def execInc (opA : RegOperand) (s : State) : StepResult := aluReg .inc opA s

/-- DEC (rule R153). -/
def execDec (opA : RegOperand) (s : State) : StepResult := aluReg .dec opA s

/-- NOT (rule R154). -/
def execNot (opA : RegOperand) (s : State) : StepResult := aluReg .not opA s

/-- CMP (rule R155): writes all of FL and no register. -/
def execCmp (opA opB : RegOperand) (s : State) : StepResult := aluRegReg .cmp opA opB s

end Sys2Proof.Machine
end

