-- ==== Sys2Proof/Machine/Control.lean ====
section
/-!
DEFINITION. Control transfer: the five jumps (rules R180 to R185), CALL (rule R190) and RET (rule R191).
-/
namespace Sys2Proof.Machine

/-- The template of the jumps (rule R180): `pc <- x[opA]` when the condition holds, else pc advances by 2. The register
operand is checked whether or not the jump is taken (rule R116). -/
def jumpIf (c : Cond) (opA : RegOperand) (s : State) : StepResult :=
  withReg opA s fun a => .ok (if c.holds s.flags then s.setPc (pcOfByte (s.reg a)) else s.advance 1)

/-- JMP (rule R181). -/
def execJmp (opA : RegOperand) (s : State) : StepResult := jumpIf .always opA s

/-- JEQ (rule R182). -/
def execJeq (opA : RegOperand) (s : State) : StepResult := jumpIf .equal opA s

/-- JNE (rule R183). -/
def execJne (opA : RegOperand) (s : State) : StepResult := jumpIf .notEqual opA s

/-- JGT (rule R184). -/
def execJgt (opA : RegOperand) (s : State) : StepResult := jumpIf .greater opA s

/-- JLT (rule R185). -/
def execJlt (opA : RegOperand) (s : State) : StepResult := jumpIf .less opA s

/-- The return address CALL stores: `trunc8(pc0 + 2)` (rule R190). -/
def returnAddress (pc0 : PcWord) : Byte := trunc8 ((pc0.toNat : Int) + 2)

/-- CALL (rule R190), in the order of its pseudocode: the SP decrement, the stack write, then the target read. -/
def execCall (opA : RegOperand) (s : State) : StepResult :=
  withReg opA s fun a =>
    let s1 := s.decSp
    let s2 := s1.store8 s1.sp (returnAddress s.pc)
    .ok (s2.setPc (pcOfByte (s2.reg a)))

/-- RET (rule R191). -/
def execRet (s : State) : StepResult := withNone s (.ok s.popPc)

end Sys2Proof.Machine
end

