-- ==== Sys2Proof/Machine/IoSystem.lean ====
section
/-!
DEFINITION. Output, halt, no-op and interrupt instructions: PRN, PRA, HLT, NOP, INT, IRET (rules R230 to R235).
-/
namespace Sys2Proof.Machine

/-- PRN (rule R230): `Emit(Dec(x[opA]))`. -/
def execPrn (opA : RegOperand) (s : State) : StepResult :=
  withReg opA s fun a => .ok ((s.emit (.dec (s.reg a))).advance 1)

/-- PRA (rule R231): `Emit(Chr(x[opA]))`. -/
def execPra (opA : RegOperand) (s : State) : StepResult :=
  withReg opA s fun a => .ok ((s.emit (.chr (s.reg a))).advance 1)

/-- HLT (rule R232): `RUN <- Halted`; ERR is not written and pc advances by 1. -/
def execHlt (s : State) : StepResult := withNone s (.ok (s.halt.advance 0))

/-- NOP (rule R233): pc advances by 1. -/
def execNop (s : State) : StepResult := withNone s (.ok (s.advance 0))

/-- The IS bit of interrupt number k: `1 << k` for k ≤ 7, none for k ≥ 8 (rule R234). -/
def interruptBit (k : Byte) : Byte := if k.toNat ≤ 7 then BitVec.ofNat 8 (2 ^ k.toNat) else 0

/-- INT (rule R234): sets bit x[opA] of IS; transfers no control and touches no stack. -/
def execInt (opA : RegOperand) (s : State) : StepResult :=
  withReg opA s fun a => .ok ((s.orIS (interruptBit (s.reg a))).advance 1)

/-- IRET (rule R235). -/
def execIret (s : State) : StepResult := withNone s (.ok s.returnFromInterrupt)

end Sys2Proof.Machine
end

