-- ==== Sys2Proof/Machine/LoadImmediate.lean ====
section
/-!
DEFINITION. Immediate load (rule R130).
-/
namespace Sys2Proof.Machine

/-- LDI (rule R130): `x[opA] <- opB`; opB is an immediate and is not checked. -/
def execLdi (opA : RegOperand) (opB : Byte) (s : State) : StepResult :=
  withReg opA s fun a => .ok ((s.setReg a opB).advance 2)

end Sys2Proof.Machine
end

