-- ==== Sys2Proof/Machine/StackMemory.lean ====
section
/-!
DEFINITION. Stack and memory instructions: PUSH (rule R210), POP (rule R211), LD (rule R212), ST (rule R213).
-/
namespace Sys2Proof.Machine

/-- PUSH (rule R210): the SP decrement, then the write of x[opA], read after the decrement. -/
def execPush (opA : RegOperand) (s : State) : StepResult :=
  withReg opA s fun a =>
    let s1 := s.decSp
    .ok ((s1.store8 s1.sp (s1.reg a)).advance 1)

/-- POP (rule R211): the register write, then the SP increment, SP read after the register write. -/
def execPop (opA : RegOperand) (s : State) : StepResult :=
  withReg opA s fun a => .ok ((s.popReg a).advance 1)

/-- LD (rule R212): opA holds the address, opB is the destination. -/
def execLd (opA opB : RegOperand) (s : State) : StepResult :=
  withRegReg opA opB s fun a b => .ok ((s.setReg b (s.load8 (s.reg a))).advance 2)

/-- ST (rule R213): opA holds the address, opB the value. -/
def execSt (opA opB : RegOperand) (s : State) : StepResult :=
  withRegReg opA opB s fun a b => .ok ((s.store8 (s.reg a) (s.reg b)).advance 2)

end Sys2Proof.Machine
end

