-- ==== Sys2Proof/Machine/Cycle.lean ====
section
/-!
DEFINITION. The fetch-decode-execute step (rules R110 to R118), over any value of `OPCODE_MAP`.
-/
namespace Sys2Proof.Machine

/-- Fetch, decode and operand fetch (rules R111, R112): the bytes at pc, pc+1 and pc+2, each read only when needed and
in that order; the first read above address 255, or an opcode absent from the table, raises its error. -/
def fetchInstr (m : OpcodeMap) (s : State) : Except CoreError Instr :=
  decodeFrom m CoreError.unknownOpcode fun k => memRead (s.pc.toNat + k) s

/-- One step request (rule R118), under an opcode map. -/
def cycle (m : OpcodeMap) (s : State) : StepResult :=
  match s.run with
  | .halted => .next s
  | .running =>
    match fetchInstr m s with
    | .error e => .next (s.takeError e)
    | .ok i => exec i s

/-- Store a list of bytes at ascending addresses from `a`; a byte whose address lies beyond 255 is dropped. -/
def placeBytes : Memory → Nat → List Byte → Memory
  | m, _, [] => m
  | m, a, b :: bs => placeBytes (if a ≤ 255 then m.write a b else m) (a + 1) bs

end Sys2Proof.Machine
end

