-- ==== Sys2Proof/Machine/Step.lean ====
section
/-!
DEFINITION. The step of the machine, and the host's way to place an instruction where it fetches next.
-/
namespace Sys2Proof.Machine

/-- One step request (rule R118) under the default `OPCODE_MAP` (PRESUMED, log entry 2). -/
def step (s : State) : Host.Outcome State Fault Refusal := cycle defaultOpcodeMap s

/-- `s` with an instruction's three bytes at pc, pc+1 and pc+2, where the next step fetches (rules R111, R112), and the
engine Running, without which a step fetches nothing (rule R110). It stands for the host's program load (log entry
15). -/
def State.withFetchWord (s : State) (nbits w : Nat) : State :=
  { s with run := .running, mem := placeBytes s.mem s.pc.toNat (tableBytes nbits w) }

end Sys2Proof.Machine
end

