-- ==== Sys2Proof/Machine/HostPort.lean ====
section
/-!
DEFINITION. The CORE's interfaces to the host other than the step request: launch with a `MEM_INIT` (rules R35, R290,
R291), program load (rules R66, R292), reading state (rule R36), and how the host renders the output channel (rules
R230, R231). No step uses this file.
-/
namespace Sys2Proof.Machine

/-! ### Launch and program load -/

/-- A memory list holding `f a` at every address a below n. -/
def Memory.fill (f : MemInit) : Nat → Memory
  | 0 => []
  | n + 1 => (Memory.fill f n).write n (f n)

/-- The state after reset for a launch input `MEM_INIT` (rules R35, R290, R291). -/
def State.launch (memInit : MemInit) : State := { State.reset with mem := Memory.fill memInit Config.memSize }

/-- `poke(address, value)` (rules R66, R292): none where the address lies beyond 255. -/
def State.poke (a : Nat) (v : Int) (s : State) : Option State :=
  match memWrite a v s with
  | .ok t => some t
  | .error _ => none

/-- Write a sequence of values at ascending addresses, each truncated (rules R53, R66). -/
def Memory.writeAll : Memory → Nat → List Int → Memory
  | m, _, [] => m
  | m, a, v :: vs => Memory.writeAll (m.write a (trunc8 v)) (a + 1) vs

/-- `load(offset, bytes)` (rules R66, R292): refused as a whole, none, where a byte would land beyond address 255. -/
def State.load (offset : Nat) (bytes : List Int) (s : State) : Option State :=
  if bytes = [] ∨ offset + bytes.length ≤ Config.memSize then
    some { s with mem := Memory.writeAll s.mem offset bytes }
  else none

/-! ### Reading state -/

/-- `readReg(i)` (rule R36): none, RegisterOutOfRange at the host interface, for i above 7. The other fields the host
reads are the fields of State. -/
def State.readReg (i : Nat) (s : State) : Option Byte :=
  if h : i < Config.numRegs then some (s.reg ⟨i, h⟩) else none

/-- The host's read of a memory cell (rules R36, R66): none beyond address 255. -/
def State.readCell (a : Nat) (s : State) : Option Byte :=
  match memRead a s with
  | .ok v => some v
  | .error _ => none

/-! ### Rendering the output channel -/

/-- The decimal digit of a number below 10. -/
def decimalDigit (n : Nat) : Char := Char.ofNat (48 + n % 10)

/-- The unsigned decimal digits of a byte: no sign, no leading zeros, "0" for zero (rule R230). -/
def decimalDigits (v : Byte) : List Char :=
  let n := v.toNat
  if n < 10 then [decimalDigit n]
  else if n < 100 then [decimalDigit (n / 10), decimalDigit n]
  else [decimalDigit (n / 100), decimalDigit (n / 10), decimalDigit n]

/-- What the host writes for one event (rules R230, R231; the line terminator LF and the code points are the spec's
decision D15, log entry 12): a decimal line, or the one character whose code point is the value. -/
def OutEvent.render : OutEvent → List Char
  | .dec v => decimalDigits v ++ [Char.ofNat 10]
  | .chr v => [Char.ofNat v.toNat]

/-- What the host writes for the whole output channel, oldest event first (rule R33). -/
def renderOut (out : List OutEvent) : List Char := out.flatMap OutEvent.render

end Sys2Proof.Machine
end

