-- ==== Sys2Proof/WellFormed.lean ====
section
/-!
DEFINITION. Well-formed instructions: every register-index operand names one of the eight registers (rules R87, R88,
R116). An ill-formed instruction still has an encoding and a meaning: it raises RegisterOutOfRange.
-/
namespace Sys2Proof

/-- The register-index operands of an instruction, opA before opB (rules R87, R116). LDI's opB is an immediate and is
not among them. -/
def Instr.registerOperands : Instr → List RegOperand
  | .ldi dst _ => [dst]
  | .add a b => [a, b]
  | .sub a b => [a, b]
  | .mul a b => [a, b]
  | .div a b => [a, b]
  | .mod a b => [a, b]
  | .and a b => [a, b]
  | .or a b => [a, b]
  | .xor a b => [a, b]
  | .inc r => [r]
  | .dec r => [r]
  | .not r => [r]
  | .cmp a b => [a, b]
  | .jmp r => [r]
  | .jeq r => [r]
  | .jne r => [r]
  | .jgt r => [r]
  | .jlt r => [r]
  | .call r => [r]
  | .ret => []
  | .push r => [r]
  | .pop r => [r]
  | .ld addr dst => [addr, dst]
  | .st addr src => [addr, src]
  | .prn r => [r]
  | .pra r => [r]
  | .hlt => []
  | .nop => []
  | .int r => [r]
  | .iret => []

/-- A register index in 0 to 7 (rule R22). -/
def RegOperand.inRange (i : RegOperand) : Bool := decide (i.toNat < 8)

/-- Every register-index operand is in 0 to 7 (rules R22, R116). -/
def Instr.wellFormed (i : Instr) : Bool := i.registerOperands.all RegOperand.inRange

end Sys2Proof
end

