-- ==== Sys2Proof/Safety.lean ====
section
/-!
DEFINITION. What counts as a safe run, in the terms the claims use: how a run ends (rules R120, R266), the invariant
every step keeps, and the frame of an instruction (what it leaves unchanged).
-/
namespace Sys2Proof.Machine

/-- The run has ended normally: HLT was executed (rules R120, R266). -/
def State.EndedNormally (s : State) : Prop := s.run = .halted ∧ s.err.code = 0

/-- The run has ended with an error (rules R120, R266). -/
def State.EndedInError (s : State) : Prop := s.run = .halted ∧ s.err.code ≠ 0

/-- What every state a run can reach has. -/
structure State.Inv (s : State) : Prop where
  /-- The memory list is canonical and holds no address beyond 255 (R50). -/
  memory : s.mem.wf = true
  /-- Bits 7:3 of FL are 0 (R26). -/
  flags : s.fl.toNat < 8
  /-- Only the pc values 0 to 256 are reachable (R25). -/
  pcBound : s.pc.toNat ≤ 256
  /-- ERR.code is 0 to 4 (R32). -/
  errCode : s.err.code.toNat ≤ 4
  /-- ERR.pc is the pc of a step (R25, R32). -/
  errPc : s.err.pc.toNat ≤ 256
  /-- With no error recorded, ERR is (0, 0) (R32, R232). -/
  errNone : s.err.code = 0 → s.err.pc = 0
  /-- A running engine has recorded no error (R31, R32). -/
  running : s.run = .running → s.err.code = 0
  /-- Nothing clears IE, which is 1 at reset (R30). -/
  enabled : s.ie = true

/-- What an instruction may write beside pc; what is not named is kept. -/
structure Writes where
  /-- General registers. -/
  regs : List RegId := []
  /-- Memory cells, by address. -/
  cells : List Nat := []
  fl : Bool := false
  is : Bool := false
  ie : Bool := false
  run : Bool := false
  err : Bool := false
  out : Bool := false
  deriving DecidableEq, Repr

/-- From `s` to `t` nothing but pc and what `w` names has changed; every byte of memory is compared by a read. -/
structure Frame (w : Writes) (s t : State) : Prop where
  regs : ∀ r, r ∉ w.regs → t.reg r = s.reg r
  cells : ∀ a, a ∉ w.cells → t.mem.read a = s.mem.read a
  fl : w.fl = false → t.fl = s.fl
  is : w.is = false → t.is = s.is
  ie : w.ie = false → t.ie = s.ie
  run : w.run = false → t.run = s.run
  err : w.err = false → t.err = s.err
  out : w.out = false → t.out = s.out

/-- The state after an error (rules R262, R263): `s` but for RUN and ERR. -/
def State.failed (s : State) (code : BitVec 3) : State := { s with run := .halted, err := ⟨code, s.pc⟩ }

/-- Executing `i` at `s` raises the error `e` (rule R262): RUN is Halted and ERR is (code(e), pc0) afterwards. -/
def Raises (i : Instr) (s : State) (e : CoreError) : Prop :=
  ∃ t, exec i s = .next t ∧ t.run = .halted ∧ t.err = ⟨e.code, s.pc⟩

/-- The bytes at pc, pc+1 and pc+2, those that lie in memory. -/
def State.bytesAtPc (s : State) : List Byte := (List.range 3).filterMap fun k => s.readCell (s.pc.toNat + k)

end Sys2Proof.Machine
end

