-- ==== Sys2Proof/Certificates/Slice0/Obligations.lean ====
section
/-!
DEFINITION. The statements about the model, each a `def Obligations.<Name> : Prop`; OBLIGATIONS.json lists them with
the rule or section each rests on. Nothing here is proved.
-/
open Sys2Proof Sys2Proof.Machine

/-! ### Reset and the host's interface -/

/-- Rules R35, R290: the state after reset for every `MEM_INIT`. The values of IS, IE, ERR and OUT and the open memory
are the spec's decisions D8, D10, D16, D15 and D3. -/
def Obligations.LaunchStateAfterReset : Prop :=
  ∀ memInit : MemInit,
    (∀ r : RegId, r ≠ 7 → (State.launch memInit).reg r = 0) ∧
    (State.launch memInit).sp = 0xF4 ∧
    (State.launch memInit).pc = 0 ∧
    (State.launch memInit).fl = 0 ∧
    (State.launch memInit).run = .running ∧
    (State.launch memInit).is = 0 ∧
    (State.launch memInit).ie = true ∧
    (State.launch memInit).err = ⟨0, 0⟩ ∧
    (State.launch memInit).out = [] ∧
    ∀ a, a ≤ 255 → (State.launch memInit).mem.read a = memInit a

/-- The model's choice (log entry 1): `State.reset` is the launch whose `MEM_INIT` is 0 in every cell. -/
def Obligations.ResetIsTheZeroMemoryLaunch : Prop := State.launch (fun _ => 0) = State.reset

/-- The invariant holds after reset, for every `MEM_INIT`. -/
def Obligations.InvariantHoldsAfterReset : Prop :=
  (∀ memInit : MemInit, (State.launch memInit).Inv) ∧ State.reset.Inv

/-- Every step keeps the invariant, under every opcode map. -/
def Obligations.StepKeepsInvariant : Prop :=
  (∀ (m : OpcodeMap) (s t : State), s.Inv → cycle m s = .next t → t.Inv) ∧
  (∀ s t : State, s.Inv → step s = .next t → t.Inv)

/-- Rule R66: a load within the memory writes every byte, truncated, and nothing else; a load that reaches past address
255 is refused as a whole (the spec's decision D21). `poke` likewise, for one byte. -/
def Obligations.ProgramLoadWritesAllOrNothing : Prop :=
  (∀ (offset : Nat) (bytes : List Int) (s : State), s.mem.wf = true → offset + bytes.length ≤ 256 →
    ∃ t, s.load offset bytes = some t ∧
      (∀ j (hj : j < bytes.length), ((t.mem.read (offset + j)).toNat : Int) = bytes[j] % 256) ∧
      (∀ a, a < offset ∨ offset + bytes.length ≤ a → t.mem.read a = s.mem.read a) ∧
      t.mem.wf = true ∧
      t = { s with mem := t.mem }) ∧
  (∀ (offset : Nat) (bytes : List Int) (s : State), bytes ≠ [] → offset + bytes.length > 256 →
    s.load offset bytes = none) ∧
  (∀ (a : Nat) (v : Int) (s : State), a ≤ 255 → s.poke a v = s.load a [v]) ∧
  (∀ (a : Nat) (v : Int) (s : State), a > 255 → s.poke a v = none)

/-- Rule R36: what the host reads of registers and memory. -/
def Obligations.HostReadsRegistersAndCells : Prop :=
  (∀ (s : State) (r : RegId), s.readReg r.val = some (s.reg r)) ∧
  (∀ (s : State) (i : Nat), i > 7 → s.readReg i = none) ∧
  (∀ (s : State) (a : Nat), a ≤ 255 → s.readCell a = some (s.mem.read a)) ∧
  (∀ (s : State) (a : Nat), a > 255 → s.readCell a = none)

/-- Rule R230, its rendering (the spec's decision D15): the digits of a byte are decimal digits, spell its value, and
have no leading zero. -/
def Obligations.DecimalDigitsSpellTheByte : Prop :=
  ∀ v : Byte,
    (decimalDigits v).foldl (fun n c => 10 * n + (c.toNat - 48)) 0 = v.toNat ∧
    (∀ c ∈ decimalDigits v, 48 ≤ c.toNat ∧ c.toNat ≤ 57) ∧
    (v ≠ 0 → (decimalDigits v).head? ≠ some '0') ∧
    (v = 0 → decimalDigits v = ['0'])

/-! ### Encoding -/

/-- For every admitted opcode map and every instruction, with every operand byte at every value: decoding its encoding
gives it back, whatever bytes follow. -/
def Obligations.DecodeOfEncodeIsTheInstruction : Prop :=
  ∀ (m : OpcodeMap), m.Valid → ∀ (i : Instr) (rest : List Byte), decodeWith m (encodeWith m i ++ rest) = .ok i

/-- What decodes to an instruction begins with its encoding: each sequence of bytes has one meaning. -/
def Obligations.DecodedBytesAreTheEncoding : Prop :=
  ∀ (m : OpcodeMap) (bytes : List Byte) (i : Instr),
    decodeWith m bytes = .ok i → bytes.take i.length = encodeWith m i

/-- Rule R86: the default map meets the three constraints of rule R85; so does the edition that
93_implementation_defined.md I1 lists. Both tables are the spec's general knowledge (log entry 2). -/
def Obligations.OpcodeMapsMeetTheConstraints : Prop := defaultOpcodeMap.Valid ∧ laterEditionOpcodeMap.Valid

/-- Rules R80, R82: under every admitted map the length of an instruction is 1 + bits 7:6 of its first byte, that count
is 0, 1 or 2, and bit 5 of the byte is the ALU class. -/
def Obligations.FirstByteGivesLengthAndClass : Prop :=
  ∀ (m : OpcodeMap), m.Valid → ∀ i : Instr,
    (encodeWith m i).length = 1 + opcodeCount (m i.mnemonic) ∧
    (encodeWith m i).head? = some (m i.mnemonic) ∧
    opcodeCount (m i.mnemonic) ≤ 2 ∧
    opcodeAlu (m i.mnemonic) = i.mnemonic.aluClass

/-- Rule R83: no admitted map has an opcode with bits 7:6 = 3; such a byte is not in the table, and a step that fetches
it raises UnknownOpcode whatever follows, even at address 255, where no operand could be fetched. -/
def Obligations.CountThreeByteIsUnknownOpcode : Prop :=
  ∀ (m : OpcodeMap), m.Valid →
    (∀ d, opcodeCount (m d) ≠ 3) ∧
    (∀ op : Byte, opcodeCount op = 3 → decodeOpcode m op = none) ∧
    (∀ (op : Byte) (rest : List Byte), opcodeCount op = 3 → decodeWith m (op :: rest) = .error (.unknownOpcode op)) ∧
    (∀ s : State, s.pc.toNat ≤ 255 → opcodeCount (s.mem.read s.pc.toNat) = 3 →
      fetchInstr m s = .error (.unknownOpcode (s.mem.read s.pc.toNat)))

/-- Rule R90, its count under the default map: 226 of the 256 byte values are illegal. -/
def Obligations.IllegalOpcodeBytesNumber226 : Prop :=
  ((List.range 256).filter fun b => (decodeOpcode defaultOpcodeMap (BitVec.ofNat 8 b)).isNone).length = 226

/-- Words written out from the default table of rule R86, one of each family: the table's row gives the instruction. -/
def Obligations.WrittenOutWordsDecode : Prop :=
  decodeTableWord 24 0b00001000_00000000_10011001 = some (.ldi 0 8) ∧
  decodeTableWord 24 0b00000001_00000010_10101000 = some (.add 2 1) ∧
  decodeTableWord 16 0b00000011_01110000 = some (.not 3) ∧
  decodeTableWord 24 0b00000001_00000000_10100000 = some (.cmp 0 1) ∧
  decodeTableWord 16 0b00000101_01010010 = some (.jne 5) ∧
  decodeTableWord 16 0b00000001_01001000 = some (.call 1) ∧
  decodeTableWord 24 0b00000011_00000010_10011000 = some (.ld 2 3) ∧
  decodeTableWord 16 0b00000100_01000011 = some (.prn 4) ∧
  decodeTableWord 8 0b00001011 = some .iret ∧
  decodeTableWord 8 0b00000010 = none

/-! ### The step -/

/-- A step runs the instruction that the bytes at pc decode to: nothing stands between the decoder and `exec`. -/
def Obligations.StepRunsTheDecodedInstruction : Prop :=
  (∀ (m : OpcodeMap) (s : State) (i : Instr), s.run = .running → decodeWith m s.bytesAtPc = .ok i →
    cycle m s = exec i s) ∧
  (∀ (s : State) (i : Instr), s.run = .running → decode s.bytesAtPc = .ok i → step s = exec i s)

/-- Rules R111, R112: the opcode is read at pc0, then as many operands as the table entry has, in order; the first
address above 255, or an opcode absent from the table, raises its error and nothing after it is fetched. -/
def Obligations.FetchAndOperandFetch : Prop :=
  ∀ (m : OpcodeMap) (s : State),
    (s.pc.toNat > 255 → fetchInstr m s = .error (.addressOutOfRange s.pc.toNat)) ∧
    (s.pc.toNat ≤ 255 → decodeOpcode m (s.mem.read s.pc.toNat) = none →
      fetchInstr m s = .error (.unknownOpcode (s.mem.read s.pc.toNat))) ∧
    ∀ d, s.pc.toNat ≤ 255 → decodeOpcode m (s.mem.read s.pc.toNat) = some d →
      (d.operandCount = 0 → fetchInstr m s = .ok (d.instr 0 0)) ∧
      (d.operandCount ≥ 1 → s.pc.toNat + 1 > 255 → fetchInstr m s = .error (.addressOutOfRange (s.pc.toNat + 1))) ∧
      (d.operandCount = 1 → s.pc.toNat + 1 ≤ 255 →
        fetchInstr m s = .ok (d.instr (s.mem.read (s.pc.toNat + 1)) 0)) ∧
      (d.operandCount = 2 → s.pc.toNat + 1 = 255 → fetchInstr m s = .error (.addressOutOfRange (s.pc.toNat + 2))) ∧
      (d.operandCount = 2 → s.pc.toNat + 2 ≤ 255 →
        fetchInstr m s = .ok (d.instr (s.mem.read (s.pc.toNat + 1)) (s.mem.read (s.pc.toNat + 2))))

/-- Rules R262, R263, R116: whichever of the four errors a step raises (a fetch error, a register operand above 7, a zero
divisor), exactly this happens: RUN is Halted and ERR is (code of that error, pc0). That a register operand is checked
whatever the instruction then does, a jump that is not taken included, is the spec's decision D6 (log entry 6); that
nothing else changes is, but for DivideByZero, its decision D4 (log entry 5). -/
def Obligations.ErrorEntryHaltsAndRecords : Prop :=
  ∀ (m : OpcodeMap) (s : State), s.run = .running →
    (∀ e, fetchInstr m s = .error e → cycle m s = .next (s.failed e.code)) ∧
    (∀ i r, fetchInstr m s = .ok i → i.registerOperands.find? (fun x => !RegOperand.inRange x) = some r →
      cycle m s = .next (s.failed (CoreError.registerOutOfRange r).code)) ∧
    (∀ (i : Instr) (a b : Byte) (_ : a.toNat < 8) (hb : b.toNat < 8), i = .div a b ∨ i = .mod a b →
      fetchInstr m s = .ok i → s.reg ⟨b.toNat, hb⟩ = 0 →
      cycle m s = .next (s.failed (CoreError.divideByZero s.pc).code))

/-- Rules R32, R260, R261: the numeric codes (the spec's decision D16), for every way of raising each error: the opcode
and the operand fetch above 255, an opcode absent from the table, every ill-formed instruction, DIV and MOD by zero. -/
def Obligations.ErrorCodesAreOneToFour : Prop :=
  (∀ (m : OpcodeMap) (s : State), s.run = .running →
    (s.pc.toNat > 255 → cycle m s = .next (s.failed 1)) ∧
    (∀ d, s.pc.toNat ≤ 255 → decodeOpcode m (s.mem.read s.pc.toNat) = some d →
      s.pc.toNat + d.operandCount > 255 → cycle m s = .next (s.failed 1)) ∧
    (s.pc.toNat ≤ 255 → decodeOpcode m (s.mem.read s.pc.toNat) = none → cycle m s = .next (s.failed 4))) ∧
  (∀ (i : Instr) (s : State), i.wellFormed = false → exec i s = .next (s.failed 2)) ∧
  (∀ (i : Instr) (a b : Byte) (_ : a.toNat < 8) (hb : b.toNat < 8) (s : State), i = .div a b ∨ i = .mod a b →
    s.reg ⟨b.toNat, hb⟩ = 0 → exec i s = .next (s.failed 3))

/-- Rule R263: a step that ends with an error changes nothing but RUN and ERR. For the errors other than DivideByZero
this is the spec's decision D4. -/
def Obligations.FailingStepCommitsNothingElse : Prop :=
  ∀ (m : OpcodeMap) (s t : State), s.run = .running → s.err.code = 0 → cycle m s = .next t → t.err.code ≠ 0 →
    t = s.failed t.err.code ∧ 1 ≤ t.err.code.toNat ∧ t.err.code.toNat ≤ 4

/-- Rule R116: an instruction with a register operand above 7 raises RegisterOutOfRange, whatever the flags hold and
whatever its other operands are, and does nothing else (the spec's decisions D6 and D4). -/
def Obligations.RegisterOperandAboveSevenRaises : Prop :=
  ∀ (i : Instr) (s : State), i.wellFormed = false → exec i s = .next (s.failed 2)

/-- Every step request and every instruction, at every state, answers a next state: the machine's own errors are
states, and nothing is refused. That every error is a next state, so that `Fault` is empty, is the model's reading of
rules R260 to R263 (DEDUCED, log entry 18). -/
def Obligations.EveryStepAnswersANextState : Prop :=
  (∀ (i : Instr) (s : State), ∃ t, exec i s = .next t) ∧
  (∀ (m : OpcodeMap) (s : State), ∃ t, cycle m s = .next t) ∧
  (∀ s : State, ∃ t, step s = .next t)

/-- Rules R110, R265: Halted is terminal; any number of step requests then changes nothing (the spec's decision D5). -/
def Obligations.HaltedIsTerminal : Prop :=
  ∀ (k : Nat) (s : State), s.run = .halted → Sys2Proof.core.run k s = .next s

/-- Rules R120, R266: a running engine that halts in a step has executed HLT exactly if ERR.code is 0 afterwards; after
an error the code is 1 to 4. The premise on ERR is a clause of the invariant. -/
def Obligations.NormalHaltMeansHltWasExecuted : Prop :=
  ∀ (m : OpcodeMap) (s t : State), s.run = .running → s.err.code = 0 → cycle m s = .next t → t.run = .halted →
    (t.EndedNormally ↔ fetchInstr m s = .ok .hlt) ∧
    (t.EndedInError ↔ 1 ≤ t.err.code.toNat ∧ t.err.code.toNat ≤ 4)

/-- Rule R114: an instruction that does not write pc itself advances it by its length, HLT among them (the spec's
decision D14), unless it ends in an error. -/
def Obligations.NonTransferAdvancesByItsLength : Prop :=
  ∀ (i : Instr) (s t : State), s.err.code = 0 → exec i s = .next t → t.err.code = 0 →
    i.mnemonic ∉ [Mnemonic.jmp, .jeq, .jne, .jgt, .jlt, .call, .ret, .iret] →
    t.pc = s.pc + BitVec.ofNat 9 i.length

/-! ### Memory -/

/-- Rules R52, R53: the access primitives. The premise of the last clause is a clause of the invariant. -/
def Obligations.MemoryAccessPrimitives : Prop :=
  (∀ (a : Nat) (s : State), a > 255 → memRead a s = .error (.addressOutOfRange a)) ∧
  (∀ (a : Nat) (s : State), a ≤ 255 → memRead a s = .ok (s.mem.read a)) ∧
  (∀ (a : Nat) (v : Int) (s : State), a > 255 → memWrite a v s = .error (.addressOutOfRange a)) ∧
  (∀ (a : Nat) (v : Int) (s : State), a ≤ 255 → ∃ t, memWrite a v s = .ok t ∧
    (∀ b, b ≠ a → memRead b t = memRead b s) ∧
    t = { s with mem := t.mem } ∧
    (s.mem.wf = true → ∃ w, memRead a t = .ok w ∧ (w.toNat : Int) = v % 256))

/-- Rule R64: a byte stored by ST at the address of the next instruction is the opcode the next step fetches. -/
def Obligations.StoreIsSeenByTheNextFetch : Prop :=
  ∀ (a b : Byte) (ha : a.toNat < 8) (hb : b.toNat < 8) (s : State), s.mem.wf = true →
    (s.reg ⟨a.toNat, ha⟩).toNat = (s.pc + 3).toNat →
    ∃ t, exec (.st a b) s = .next t ∧ memRead t.pc.toNat t = .ok (s.reg ⟨b.toNat, hb⟩) ∧
      ∀ m : OpcodeMap, decodeOpcode m (s.reg ⟨b.toNat, hb⟩) = none →
        fetchInstr m t = .error (.unknownOpcode (s.reg ⟨b.toNat, hb⟩))

/-! ### Immediate load and the ALU -/

/-- Rule R130: LDI. -/
def Obligations.LdiLoadsTheImmediate : Prop :=
  ∀ (a imm : Byte) (s : State),
    (∀ ha : a.toNat < 8, ∃ t, exec (.ldi a imm) s = .next t ∧
      t.reg ⟨a.toNat, ha⟩ = imm ∧ t.pc = s.pc + 3 ∧ Frame { regs := [⟨a.toNat, ha⟩] } s t) ∧
    (a.toNat > 7 → Raises (.ldi a imm) s (.registerOutOfRange a)) ∧
    encode (.ldi a imm) = [0x99, a, imm] ∧
    ∀ m : OpcodeMap, m.Valid → encodeWith m (.ldi a imm) = [m .ldi, a, imm] ∧
      opcodeCount (m .ldi) = 2 ∧ opcodeAlu (m .ldi) = false

/-- Rule R140: the table of `ALU.apply`, over unsigned integers. -/
def Obligations.AluFunctionTable : Prop :=
  ∀ a b : Byte,
    aluApply .add a b = .byte (BitVec.ofNat 8 ((a.toNat + b.toNat) % 256)) ∧
    aluApply .sub a b = .byte (BitVec.ofNat 8 ((a.toNat + 256 - b.toNat) % 256)) ∧
    aluApply .mul a b = .byte (BitVec.ofNat 8 (a.toNat * b.toNat % 256)) ∧
    (b ≠ 0 → aluApply .div a b = .byte (BitVec.ofNat 8 (a.toNat / b.toNat))) ∧
    (b ≠ 0 → aluApply .mod a b = .byte (BitVec.ofNat 8 (a.toNat % b.toNat))) ∧
    (b = 0 → aluApply .div a b = .divideByZero ∧ aluApply .mod a b = .divideByZero) ∧
    aluApply .inc a b = .byte (BitVec.ofNat 8 ((a.toNat + 1) % 256)) ∧
    aluApply .dec a b = .byte (BitVec.ofNat 8 ((a.toNat + 255) % 256)) ∧
    aluApply .and a b = .byte (a &&& b) ∧
    aluApply .or a b = .byte (a ||| b) ∧
    aluApply .xor a b = .byte (a ^^^ b) ∧
    aluApply .not a b = .byte (BitVec.ofNat 8 (255 - a.toNat)) ∧
    (a.toNat = b.toNat → aluApply .cmp a b = .flags 0b001) ∧
    (a.toNat > b.toNat → aluApply .cmp a b = .flags 0b010) ∧
    (a.toNat < b.toNat → aluApply .cmp a b = .flags 0b100)

namespace Sys2Proof.Machine

/-- The template of rule R142 for one register-register ALU instruction: its result f where `defined` holds of the
sources, its frame, its pc, its RegisterOutOfRange and its encoding, with n = 2 and alu = 1. -/
def RegRegResult (ins : Byte → Byte → Instr) (op : Byte) (defined : Byte → Byte → Prop) (f : Nat → Nat → Nat) : Prop :=
  (∀ (a b : Byte) (ha : a.toNat < 8) (hb : b.toNat < 8) (s : State),
    defined (s.reg ⟨a.toNat, ha⟩) (s.reg ⟨b.toNat, hb⟩) →
    ∃ t, exec (ins a b) s = .next t ∧
      (t.reg ⟨a.toNat, ha⟩).toNat = f (s.reg ⟨a.toNat, ha⟩).toNat (s.reg ⟨b.toNat, hb⟩).toNat ∧
      t.pc = s.pc + 3 ∧ Frame { regs := [⟨a.toNat, ha⟩] } s t) ∧
  (∀ (a b : Byte) (s : State), a.toNat > 7 → Raises (ins a b) s (.registerOutOfRange a)) ∧
  (∀ (a b : Byte) (s : State), a.toNat < 8 → b.toNat > 7 → Raises (ins a b) s (.registerOutOfRange b)) ∧
  (∀ a b : Byte, encode (ins a b) = [op, a, b]) ∧ opcodeCount op = 2 ∧ opcodeAlu op = true

end Sys2Proof.Machine

/-- Rules R143, R144, R145: ADD, SUB and MUL wrap modulo 256. -/
def Obligations.AddSubMulWrap : Prop :=
  RegRegResult .add 0xA8 (fun _ _ => True) (fun x y => (x + y) % 256) ∧
  RegRegResult .sub 0xA9 (fun _ _ => True) (fun x y => (x + 256 - y) % 256) ∧
  RegRegResult .mul 0xAA (fun _ _ => True) (fun x y => x * y % 256)

/-- Rules R146, R147: DIV and MOD with a nonzero divisor, and DivideByZero, which changes nothing else, with a zero
one. -/
def Obligations.DivModAndDivideByZero : Prop :=
  RegRegResult .div 0xAB (fun _ y => y ≠ 0) (fun x y => x / y) ∧
  RegRegResult .mod 0xAC (fun _ y => y ≠ 0) (fun x y => x % y) ∧
  (∀ (a b : Byte) (_ : a.toNat < 8) (hb : b.toNat < 8) (s : State), s.reg ⟨b.toNat, hb⟩ = 0 →
    exec (.div a b) s = .next (s.failed (CoreError.divideByZero s.pc).code) ∧
    exec (.mod a b) s = .next (s.failed (CoreError.divideByZero s.pc).code))

/-- Rules R148, R149, R150: AND, OR and XOR. -/
def Obligations.AndOrXorAreBitwise : Prop :=
  RegRegResult .and 0xB3 (fun _ _ => True) (fun x y => x &&& y) ∧
  RegRegResult .or 0xB1 (fun _ _ => True) (fun x y => x ||| y) ∧
  RegRegResult .xor 0xB2 (fun _ _ => True) (fun x y => x ^^^ y)

namespace Sys2Proof.Machine

/-- The template of rule R151 for one unary ALU instruction, with n = 1 and alu = 1. -/
def UnaryResult (ins : Byte → Instr) (op : Byte) (f : Nat → Nat) : Prop :=
  (∀ (a : Byte) (ha : a.toNat < 8) (s : State), ∃ t, exec (ins a) s = .next t ∧
    (t.reg ⟨a.toNat, ha⟩).toNat = f (s.reg ⟨a.toNat, ha⟩).toNat ∧
    t.pc = s.pc + 2 ∧ Frame { regs := [⟨a.toNat, ha⟩] } s t) ∧
  (∀ (a : Byte) (s : State), a.toNat > 7 → Raises (ins a) s (.registerOutOfRange a)) ∧
  (∀ a : Byte, encode (ins a) = [op, a]) ∧ opcodeCount op = 1 ∧ opcodeAlu op = true

end Sys2Proof.Machine

/-- Rules R151 to R154: INC, DEC and NOT. -/
def Obligations.IncDecNotResult : Prop :=
  UnaryResult .inc 0x78 (fun x => (x + 1) % 256) ∧
  UnaryResult .dec 0x79 (fun x => (x + 255) % 256) ∧
  UnaryResult .not 0x70 (fun x => 255 - x)

/-- Rule R155: CMP writes exactly one flag, by the unsigned comparison of the register contents. -/
def Obligations.CmpSetsExactlyOneFlag : Prop :=
  (∀ (a b : Byte) (ha : a.toNat < 8) (hb : b.toNat < 8) (s : State), ∃ t, exec (.cmp a b) s = .next t ∧
    ((s.reg ⟨a.toNat, ha⟩).toNat = (s.reg ⟨b.toNat, hb⟩).toNat → t.fl = 0b00000001) ∧
    ((s.reg ⟨a.toNat, ha⟩).toNat > (s.reg ⟨b.toNat, hb⟩).toNat → t.fl = 0b00000010) ∧
    ((s.reg ⟨a.toNat, ha⟩).toNat < (s.reg ⟨b.toNat, hb⟩).toNat → t.fl = 0b00000100) ∧
    t.pc = s.pc + 3 ∧ Frame { fl := true } s t) ∧
  (∀ (a b : Byte) (s : State), a.toNat > 7 → Raises (.cmp a b) s (.registerOutOfRange a)) ∧
  (∀ (a b : Byte) (s : State), a.toNat < 8 → b.toNat > 7 → Raises (.cmp a b) s (.registerOutOfRange b)) ∧
  (∀ a b : Byte, encode (.cmp a b) = [0xA0, a, b]) ∧ opcodeCount 0xA0 = 2 ∧ opcodeAlu 0xA0 = true

/-- Rule R27, its frame: no instruction but CMP and IRET writes FL. -/
def Obligations.OnlyCmpAndIretWriteFlags : Prop :=
  ∀ (i : Instr) (s t : State), exec i s = .next t → i.mnemonic ∉ [Mnemonic.cmp, .iret] → t.fl = s.fl

/-! ### Control transfer -/

namespace Sys2Proof.Machine

/-- A jump: to x[opA] when `taken` holds of FL, to pc + 2 otherwise, and nothing else changes; with its encoding. -/
def JumpResult (ins : Byte → Instr) (op : Byte) (taken : Byte → Prop) : Prop :=
  (∀ (a : Byte) (ha : a.toNat < 8) (s : State), ∃ t, exec (ins a) s = .next t ∧
    (taken s.fl → t.pc.toNat = (s.reg ⟨a.toNat, ha⟩).toNat) ∧
    (¬ taken s.fl → t.pc = s.pc + 2) ∧
    Frame {} s t) ∧
  (∀ a : Byte, encode (ins a) = [op, a])

end Sys2Proof.Machine

/-- Rules R181, R182, R184, R185: JMP, JEQ, JGT and JLT. -/
def Obligations.JmpJeqJgtJltTransfer : Prop :=
  JumpResult .jmp 0x50 (fun _ => True) ∧
  JumpResult .jeq 0x51 (fun fl => fl.getLsbD 0 = true) ∧
  JumpResult .jgt 0x54 (fun fl => fl.getLsbD 1 = true) ∧
  JumpResult .jlt 0x53 (fun fl => fl.getLsbD 2 = true)

/-- Rule R183: JNE; after reset it is taken (the rule's derived corner case). -/
def Obligations.JneTakenWhenEqualIsClear : Prop :=
  JumpResult .jne 0x52 (fun fl => fl.getLsbD 0 = false) ∧
  ∀ (memInit : MemInit) (a : Byte) (ha : a.toNat < 8), ∃ t, exec (.jne a) (State.launch memInit) = .next t ∧
    t.pc.toNat = ((State.launch memInit).reg ⟨a.toNat, ha⟩).toNat

/-- Rule R190: CALL pushes the low byte of pc0 + 2 at SP - 1 and goes to x[opA]; for `CALL R7` the target is the
decremented SP (the spec's decision D7). -/
def Obligations.CallPushesReturnAddress : Prop :=
  ∀ (a : Byte) (ha : a.toNat < 8) (s : State), ∃ t, exec (.call a) s = .next t ∧
    t.sp = s.sp - 1 ∧
    s.decSp.sp = s.sp - 1 ∧
    (s.mem.wf = true → (t.mem.read s.decSp.sp.toNat).toNat = (s.pc.toNat + 2) % 256) ∧
    (a.toNat ≠ 7 → t.pc.toNat = (s.reg ⟨a.toNat, ha⟩).toNat) ∧
    (a.toNat = 7 → t.pc.toNat = (s.sp - 1).toNat) ∧
    Frame { regs := [7], cells := [s.decSp.sp.toNat] } s t

/-- Rule R191: RET. -/
def Obligations.RetPopsReturnAddress : Prop :=
  (∀ s : State, ∃ t, exec .ret s = .next t ∧
    t.pc.toNat = (s.mem.read s.sp.toNat).toNat ∧ t.sp = s.sp + 1 ∧ Frame { regs := [7] } s t) ∧
  encode .ret = [0x09] ∧ opcodeCount 0x09 = 0 ∧ opcodeAlu 0x09 = false

/-- Rule R192: a RET right after a CALL at pc0 ≤ 253 returns to pc0 + 2 with SP, every register and every byte but the
stack slot as before the CALL; for a CALL at pc0 = 254 the RET goes to 0 (90_conflicts.md C6). -/
def Obligations.CallThenRetReturns : Prop :=
  ∀ (a : Byte) (_ : a.toNat < 8) (s : State), s.mem.wf = true →
    ∃ t u, exec (.call a) s = .next t ∧ exec .ret t = .next u ∧
      (s.pc.toNat ≤ 253 → u.pc = s.pc + 2) ∧
      (s.pc.toNat = 254 → u.pc = 0) ∧
      Frame { cells := [s.decSp.sp.toNat] } s u

/-! ### Stack and memory instructions -/

/-- Rule R210: PUSH; `PUSH R7` stores the decremented SP (the spec's decision D7). -/
def Obligations.PushStoresRegister : Prop :=
  ∀ (a : Byte) (ha : a.toNat < 8) (s : State), ∃ t, exec (.push a) s = .next t ∧
    t.sp = s.sp - 1 ∧
    s.decSp.sp = s.sp - 1 ∧
    (s.mem.wf = true → a.toNat ≠ 7 → t.mem.read s.decSp.sp.toNat = s.reg ⟨a.toNat, ha⟩) ∧
    (s.mem.wf = true → a.toNat = 7 → t.mem.read s.decSp.sp.toNat = s.sp - 1) ∧
    t.pc = s.pc + 2 ∧
    Frame { regs := [7], cells := [s.decSp.sp.toNat] } s t

/-- Rule R211: POP; `POP R7` ends with the loaded byte plus 1 (the spec's decision D7). The popped cell keeps its
value. -/
def Obligations.PopLoadsRegister : Prop :=
  ∀ (a : Byte) (ha : a.toNat < 8) (s : State), ∃ t, exec (.pop a) s = .next t ∧
    (a.toNat ≠ 7 → t.reg ⟨a.toNat, ha⟩ = s.mem.read s.sp.toNat ∧ t.sp = s.sp + 1) ∧
    (a.toNat = 7 → t.sp = s.mem.read s.sp.toNat + 1) ∧
    t.pc = s.pc + 2 ∧
    Frame { regs := [⟨a.toNat, ha⟩, 7] } s t

/-- 95_test_vectors.md E7: `PUSH Ra` then `POP Rb` copies x[a] into x[b] and leaves SP, for a and b other than 7. -/
def Obligations.PushThenPopCopies : Prop :=
  ∀ (a b : Byte) (ha : a.toNat < 7) (hb : b.toNat < 7) (s : State), s.mem.wf = true →
    ∃ t u, exec (.push a) s = .next t ∧ exec (.pop b) t = .next u ∧
      u.reg ⟨b.toNat, Nat.lt_succ_of_lt hb⟩ = s.reg ⟨a.toNat, Nat.lt_succ_of_lt ha⟩ ∧
      u.sp = s.sp ∧
      Frame { regs := [⟨b.toNat, Nat.lt_succ_of_lt hb⟩], cells := [s.decSp.sp.toNat] } s u

/-- Rule R212: LD. -/
def Obligations.LdLoadsTheAddressedByte : Prop :=
  (∀ (a b : Byte) (ha : a.toNat < 8) (hb : b.toNat < 8) (s : State), ∃ t, exec (.ld a b) s = .next t ∧
    t.reg ⟨b.toNat, hb⟩ = s.mem.read (s.reg ⟨a.toNat, ha⟩).toNat ∧
    t.pc = s.pc + 3 ∧ Frame { regs := [⟨b.toNat, hb⟩] } s t) ∧
  (∀ (a b : Byte) (s : State), a.toNat > 7 → Raises (.ld a b) s (.registerOutOfRange a)) ∧
  (∀ (a b : Byte) (s : State), a.toNat < 8 → b.toNat > 7 → Raises (.ld a b) s (.registerOutOfRange b)) ∧
  (∀ a b : Byte, encode (.ld a b) = [0x98, a, b]) ∧ opcodeCount 0x98 = 2 ∧ opcodeAlu 0x98 = false

/-- Rule R213: ST. -/
def Obligations.StStoresTheRegister : Prop :=
  (∀ (a b : Byte) (ha : a.toNat < 8) (hb : b.toNat < 8) (s : State), ∃ t, exec (.st a b) s = .next t ∧
    (s.mem.wf = true → t.mem.read (s.reg ⟨a.toNat, ha⟩).toNat = s.reg ⟨b.toNat, hb⟩) ∧
    t.pc = s.pc + 3 ∧ Frame { cells := [(s.reg ⟨a.toNat, ha⟩).toNat] } s t) ∧
  (∀ (a b : Byte) (s : State), a.toNat > 7 → Raises (.st a b) s (.registerOutOfRange a)) ∧
  (∀ (a b : Byte) (s : State), a.toNat < 8 → b.toNat > 7 → Raises (.st a b) s (.registerOutOfRange b)) ∧
  (∀ a b : Byte, encode (.st a b) = [0x9A, a, b]) ∧ opcodeCount 0x9A = 2 ∧ opcodeAlu 0x9A = false

/-- Rule R51, its write column: no instruction but ST, PUSH and CALL changes any byte of memory. -/
def Obligations.OnlyStPushCallWriteMemory : Prop :=
  ∀ (i : Instr) (s t : State), exec i s = .next t → i.mnemonic ∉ [Mnemonic.st, .push, .call] →
    ∀ a, t.mem.read a = s.mem.read a

/-! ### Output, halt, no-op and interrupt instructions -/

/-- Rules R230, R231: PRN appends one Dec event, PRA one Chr event, of the register's value; rendered as a decimal line
and as the character of that code point (the spec's decision D15). -/
def Obligations.OutputAppendsOneEvent : Prop :=
  ∀ (a : Byte) (ha : a.toNat < 8) (s : State),
    (∃ t, exec (.prn a) s = .next t ∧ t.out = s.out ++ [.dec (s.reg ⟨a.toNat, ha⟩)] ∧
      renderOut t.out = renderOut s.out ++ decimalDigits (s.reg ⟨a.toNat, ha⟩) ++ [Char.ofNat 10] ∧
      t.pc = s.pc + 2 ∧ Frame { out := true } s t) ∧
    (∃ t, exec (.pra a) s = .next t ∧ t.out = s.out ++ [.chr (s.reg ⟨a.toNat, ha⟩)] ∧
      renderOut t.out = renderOut s.out ++ [Char.ofNat (s.reg ⟨a.toNat, ha⟩).toNat] ∧
      t.pc = s.pc + 2 ∧ Frame { out := true } s t)

/-- Rules R33, R56: no instruction but PRN and PRA writes the output channel, and no step drops or changes an event. -/
def Obligations.OnlyPrnPraAppendOutput : Prop :=
  (∀ (i : Instr) (s t : State), exec i s = .next t → i.mnemonic ∉ [Mnemonic.prn, .pra] → t.out = s.out) ∧
  (∀ (m : OpcodeMap) (s t : State), cycle m s = .next t → s.out <+: t.out ∧ t.out.length ≤ s.out.length + 1)

/-- Rule R232: HLT halts and leaves ERR; pc advances by 1 (the spec's decision D14). -/
def Obligations.HltHaltsAndAdvances : Prop :=
  ∀ s : State, ∃ t, exec .hlt s = .next t ∧ t.run = .halted ∧ t.pc = s.pc + 1 ∧ Frame { run := true } s t

/-- Rule R233: NOP; with the default map a region of memory holding 0x00, up to the last cell, executes as a run of
NOPs. -/
def Obligations.NopOnlyAdvances : Prop :=
  (∀ s : State, ∃ t, exec .nop s = .next t ∧ t.pc = s.pc + 1 ∧ Frame {} s t) ∧
  (∀ m : OpcodeMap, m.Valid → encodeWith m .nop = [m .nop] ∧ opcodeCount (m .nop) = 0 ∧ opcodeAlu (m .nop) = false) ∧
  encode .nop = [0x00] ∧
  (∀ s : State, s.run = .running → s.pc.toNat ≤ 255 → s.mem.read s.pc.toNat = 0x00 → step s = exec .nop s) ∧
  (∀ (n : Nat) (s : State), s.run = .running → s.pc.toNat + n ≤ 256 →
    (∀ k < n, s.mem.read (s.pc.toNat + k) = 0x00) →
    Sys2Proof.core.run n s = .next { s with pc := s.pc + BitVec.ofNat 9 n })

/-- Rule R234: INT sets bit k of IS for k ≤ 7 and no other; for k ≥ 8 IS is unchanged (the spec's decision D9). -/
def Obligations.IntSetsOneStatusBit : Prop :=
  ∀ (a : Byte) (ha : a.toNat < 8) (s : State), ∃ t, exec (.int a) s = .next t ∧
    (∀ j, j < 8 → t.is.getLsbD j = (s.is.getLsbD j || decide (j = (s.reg ⟨a.toNat, ha⟩).toNat))) ∧
    ((s.reg ⟨a.toNat, ha⟩).toNat ≥ 8 → t.is = s.is) ∧
    t.pc = s.pc + 2 ∧
    Frame { is := true } s t

namespace Sys2Proof.Machine

/-- The byte of the interrupt frame k places above SP, modulo 256 (rule R235). -/
def frameByte (s : State) (k : Nat) : Byte := s.mem.read ((s.sp.toNat + k) % 256)

end Sys2Proof.Machine

/-- Rule R235: IRET restores x[0] to x[6], FL and pc from the nine bytes from SP up, in that order (the spec's decision
D13), keeps bits 2:0 of the flags byte (D12), moves SP by 9 and sets IE. -/
def Obligations.IretRestoresTheFrame : Prop :=
  ∀ s : State, ∃ t, exec .iret s = .next t ∧
    (∀ r : RegId, r.val < 7 → t.reg r = frameByte s r.val) ∧
    t.fl.toNat = (frameByte s 7).toNat % 8 ∧
    t.pc.toNat = (frameByte s 8).toNat ∧
    t.sp.toNat = (s.sp.toNat + 9) % 256 ∧
    t.ie = true ∧
    Frame { regs := [0, 1, 2, 3, 4, 5, 6, 7], fl := true, ie := true } s t

/-- Rules R29, R30: no step clears a bit of IS or clears IE. -/
def Obligations.InterruptStateIsNeverCleared : Prop :=
  ∀ (m : OpcodeMap) (s t : State), cycle m s = .next t →
    (∀ k, s.is.getLsbD k = true → t.is.getLsbD k = true) ∧ (s.ie = true → t.ie = true)

/-- Rules R28, R29, R30, R268, R272: nothing a step does depends on IS, IE or what was output (the spec's decisions D8,
D10, D11). Whatever they hold, the step request answers the same state, with the same events appended, the same IS bits
set, and IE set by the same steps. -/
def Obligations.InterruptAndOutputStateIsNeverRead : Prop :=
  ∀ (m : OpcodeMap) (s : State), ∃ (t : State) (events : List OutEvent) (bits : Byte) (enables : Bool),
    ∀ (is : Byte) (ie : Bool) (out : List OutEvent),
      cycle m { s with is := is, ie := ie, out := out } =
        .next { t with is := is ||| bits, ie := ie || enables, out := out ++ events }
end

