-- ==== Sys2Proof/Laws/Decode.lean ====
section
/-!
SUPPORT. The laws of the decoder table, the decoder and the encoder (rules R80 to R85, R112).
-/
namespace Sys2Proof

/-! ### The table -/

theorem Mnemonic.mem_all (d : Mnemonic) : d ∈ Mnemonic.all := by cases d <;> decide

theorem Mnemonic.operandCount_le (d : Mnemonic) : d.operandCount ≤ 2 := by cases d <;> decide

/-- What the table gives is an entry of the map. -/
theorem decodeOpcode_sound {m : OpcodeMap} {op : Byte} {d : Mnemonic} (h : decodeOpcode m op = some d) : m d = op := by
  simpa using List.find?_some h

/-- Under an admitted map every entry is found by its byte. -/
theorem decodeOpcode_complete {m : OpcodeMap} (hm : m.Valid) (d : Mnemonic) : decodeOpcode m (m d) = some d := by
  cases h : decodeOpcode m (m d) with
  | none =>
    have := (List.find?_eq_none.mp h) d d.mem_all
    simp at this
  | some e => rw [hm.1 e d (decodeOpcode_sound h)]

theorem decodeOpcode_none {m : OpcodeMap} {op : Byte} (h : ∀ d, m d ≠ op) : decodeOpcode m op = none := by
  cases hd : decodeOpcode m op with
  | none => rfl
  | some d => exact absurd (decodeOpcode_sound hd) (h d)

/-- Both constraints on single bytes and distinctness, as one check over the table. -/
def OpcodeMap.check (m : OpcodeMap) : Bool :=
  Mnemonic.all.all fun d =>
    opcodeCount (m d) == d.operandCount && opcodeAlu (m d) == d.aluClass &&
    Mnemonic.all.all fun e => m d != m e || d == e

theorem OpcodeMap.valid_of_check {m : OpcodeMap} (h : m.check = true) : m.Valid := by
  simp only [OpcodeMap.check, List.all_eq_true, Bool.and_eq_true, Bool.or_eq_true, beq_iff_eq, bne_iff_ne] at h
  refine ⟨fun d e he => ?_, fun d => (h d d.mem_all).1.1, fun d => (h d d.mem_all).1.2⟩
  exact ((h d d.mem_all).2 e e.mem_all).resolve_left fun hne => hne he

/-! ### Fetching operands -/

/-- Fetching from two sources that agree where they are read gives the same operands. -/
theorem fetchOperands_eq_of_ok {ε δ : Type} {n : Nat} {f : Nat → Except ε Byte} {g : Nat → Except δ Byte}
    {p : Byte × Byte} (hfg : ∀ k b, f k = .ok b → g k = .ok b) (h : fetchOperands n f = .ok p) :
    fetchOperands n g = .ok p := by
  match n with
  | 0 => simpa [fetchOperands] using h
  | 1 =>
    cases h1 : f 1 with
    | error e => simp [fetchOperands, h1] at h
    | ok a => simpa [fetchOperands, h1, hfg 1 a h1] using h
  | n + 2 =>
    cases h1 : f 1 with
    | error e => simp [fetchOperands, h1] at h
    | ok a =>
      cases h2 : f 2 with
      | error e => simp [fetchOperands, h1, h2] at h
      | ok b => simpa [fetchOperands, h1, h2, hfg 1 a h1, hfg 2 b h2] using h

/-- Everything the decoder answers with an instruction on. -/
theorem decodeFrom_ok {ε : Type} {m : OpcodeMap} {u : Byte → ε} {f : Nat → Except ε Byte} {i : Instr}
    (h : decodeFrom m u f = .ok i) :
    ∃ op d opA opB, f 0 = .ok op ∧ decodeOpcode m op = some d ∧ fetchOperands d.operandCount f = .ok (opA, opB) ∧
      i = d.instr opA opB := by
  unfold decodeFrom at h
  split at h
  · cases h
  · next op h0 =>
    split at h
    · cases h
    · next d hd =>
      split at h
      · cases h
      · next opA opB ho =>
        cases h
        exact ⟨op, d, opA, opB, h0, hd, ho, rfl⟩

theorem decodeFrom_of {ε : Type} {m : OpcodeMap} {u : Byte → ε} {f : Nat → Except ε Byte} {op : Byte} {d : Mnemonic}
    {opA opB : Byte} (h0 : f 0 = .ok op) (hd : decodeOpcode m op = some d)
    (ho : fetchOperands d.operandCount f = .ok (opA, opB)) : decodeFrom m u f = .ok (d.instr opA opB) := by
  simp [decodeFrom, h0, hd, ho]

/-- An instruction decoded from one source is decoded from any source that has the same bytes. -/
theorem decodeFrom_eq_of_ok {ε δ : Type} {m : OpcodeMap} {u : Byte → ε} {v : Byte → δ} {f : Nat → Except ε Byte}
    {g : Nat → Except δ Byte} {i : Instr} (hfg : ∀ k b, f k = .ok b → g k = .ok b) (h : decodeFrom m u f = .ok i) :
    decodeFrom m v g = .ok i := by
  obtain ⟨op, d, opA, opB, h0, hd, ho, rfl⟩ := decodeFrom_ok h
  exact decodeFrom_of (hfg 0 op h0) hd (fetchOperands_eq_of_ok hfg ho)

/-! ### Instructions and their fields -/

@[simp] theorem Mnemonic.mnemonic_instr (d : Mnemonic) (opA opB : Byte) : (d.instr opA opB).mnemonic = d := by
  cases d <;> rfl

theorem Instr.length_operands (i : Instr) : i.operands.length = i.mnemonic.operandCount := by cases i <;> rfl

theorem Instr.length_encodeWith (m : OpcodeMap) (i : Instr) : (encodeWith m i).length = i.length := by
  rw [encodeWith, List.length_cons, i.length_operands, Instr.length, Nat.add_comm]

end Sys2Proof
end

