-- ==== Sys2Proof/Laws/Memory.lean ====
section
/-!
SUPPORT. The laws of the memory list: what a read gives after a write, and that every operation keeps the canonical
form (rules R50, R52, R53).
-/
namespace Sys2Proof.Machine

/-! ### Read after write -/

/-- A write leaves every other address alone, whatever the list. -/
theorem Memory.read_write_other (m : Memory) {a b : Nat} (v : Byte) (h : b ≠ a) :
    (m.write a v).read b = m.read b := by
  induction m with
  | nil => by_cases hv : v = Config.memUnlisted <;> simp [Memory.write, Memory.read, hv, h]
  | cons c m ih =>
    obtain ⟨c, w⟩ := c
    by_cases h1 : a < c
    · by_cases hv : v = Config.memUnlisted <;> simp [Memory.write, Memory.read, h1, hv, h]
    · by_cases h2 : a = c
      · subst h2
        by_cases hv : v = Config.memUnlisted <;> simp [Memory.write, Memory.read, hv, h]
      · simp [Memory.write, Memory.read, h1, h2, ih]

/-- An address below a canonical list's first entry reads as an unlisted one. -/
theorem Memory.read_of_wfFrom (m : Memory) {lo a : Nat} (h : Memory.wfFrom lo m = true) (ha : a < lo) :
    m.read a = Config.memUnlisted := by
  induction m generalizing lo with
  | nil => rfl
  | cons c m ih =>
    obtain ⟨c, w⟩ := c
    simp only [Memory.wfFrom, Bool.and_eq_true, decide_eq_true_eq] at h
    have hc : a ≠ c := by omega
    simp only [Memory.read, if_neg hc]
    exact ih h.2 (by omega)

theorem Memory.read_write_same_from (m : Memory) {lo : Nat} (h : Memory.wfFrom lo m = true) (a : Nat) (v : Byte) :
    (m.write a v).read a = v := by
  induction m generalizing lo with
  | nil => by_cases hv : v = Config.memUnlisted <;> simp [Memory.write, Memory.read, hv]
  | cons c m ih =>
    obtain ⟨c, w⟩ := c
    simp only [Memory.wfFrom, Bool.and_eq_true, decide_eq_true_eq] at h
    by_cases h1 : a < c
    · by_cases hv : v = Config.memUnlisted
      · have hc : a ≠ c := by omega
        simp [Memory.write, Memory.read, h1, hv, hc, Memory.read_of_wfFrom m h.2 (show a < c + 1 by omega)]
      · simp [Memory.write, Memory.read, h1, hv]
    · by_cases h2 : a = c
      · subst h2
        by_cases hv : v = Config.memUnlisted
        · simp [Memory.write, hv, Memory.read_of_wfFrom m h.2 (show a < a + 1 by omega)]
        · simp [Memory.write, Memory.read, hv]
      · simp [Memory.write, Memory.read, h1, h2, ih h.2]

/-- A read gives what was last written there. -/
theorem Memory.read_write_same (m : Memory) (h : m.wf = true) (a : Nat) (v : Byte) : (m.write a v).read a = v :=
  m.read_write_same_from h a v

/-! ### The canonical form -/

theorem Memory.wfFrom_mono (m : Memory) {lo lo' : Nat} (h : Memory.wfFrom lo m = true) (hl : lo' ≤ lo) :
    Memory.wfFrom lo' m = true := by
  cases m with
  | nil => rfl
  | cons c m =>
    obtain ⟨c, w⟩ := c
    simp only [Memory.wfFrom, Bool.and_eq_true, decide_eq_true_eq] at h ⊢
    exact ⟨⟨⟨by omega, h.1.1.2⟩, h.1.2⟩, h.2⟩

theorem Memory.wfFrom_write (m : Memory) {lo : Nat} (h : Memory.wfFrom lo m = true) {a : Nat} (hlo : lo ≤ a)
    (ha : a < Config.memSize) (v : Byte) : Memory.wfFrom lo (m.write a v) = true := by
  induction m generalizing lo with
  | nil => by_cases hv : v = Config.memUnlisted <;> simp [Memory.write, Memory.wfFrom, hv, hlo, ha]
  | cons c m ih =>
    obtain ⟨c, w⟩ := c
    have h' := h
    simp only [Memory.wfFrom, Bool.and_eq_true, decide_eq_true_eq] at h'
    by_cases h1 : a < c
    · by_cases hv : v = Config.memUnlisted
      · simpa [Memory.write, h1, hv] using h
      · simp only [Memory.write, if_pos h1, if_neg hv, Memory.wfFrom, Bool.and_eq_true, decide_eq_true_eq]
        exact ⟨⟨⟨hlo, ha⟩, hv⟩, ⟨⟨h1, h'.1.1.2⟩, h'.1.2⟩, h'.2⟩
    · by_cases h2 : a = c
      · subst h2
        by_cases hv : v = Config.memUnlisted
        · simpa [Memory.write, hv] using Memory.wfFrom_mono m h'.2 (show lo ≤ a + 1 by omega)
        · simp only [Memory.write, if_neg h1, if_true, if_neg hv, Memory.wfFrom, Bool.and_eq_true, decide_eq_true_eq]
          exact ⟨⟨⟨hlo, ha⟩, hv⟩, h'.2⟩
      · simp only [Memory.write, if_neg h1, if_neg h2, Memory.wfFrom, Bool.and_eq_true, decide_eq_true_eq]
        exact ⟨⟨⟨h'.1.1.1, h'.1.1.2⟩, h'.1.2⟩, ih h'.2 (by omega)⟩

/-- A write within the 256 cells keeps the canonical form. -/
theorem Memory.wf_write (m : Memory) (h : m.wf = true) {a : Nat} (ha : a < Config.memSize) (v : Byte) :
    (m.write a v).wf = true := m.wfFrom_write h (Nat.zero_le a) ha v

/-- A write at an 8-bit address keeps the canonical form. -/
theorem Memory.wf_write_byte (m : Memory) (h : m.wf = true) (a v : Byte) : (m.write a.toNat v).wf = true :=
  m.wf_write h (show a.toNat < 256 from a.isLt) v

/-! ### The access primitives at an 8-bit address (rule R58) -/

theorem memRead_byte (a : Byte) (s : State) : memRead a.toNat s = .ok (s.load8 a) := by
  have h : ¬ a.toNat > 255 := by have := a.isLt; omega
  simp [memRead, State.load8, h]

theorem memWrite_byte (a : Byte) (v : Int) (s : State) : memWrite a.toNat v s = .ok (s.store8 a (trunc8 v)) := by
  have h : ¬ a.toNat > 255 := by have := a.isLt; omega
  simp [memWrite, State.store8, h]

/-! ### Launch, load, and the host's placement of bytes -/

theorem Memory.wf_fill (f : MemInit) {n : Nat} (hn : n ≤ Config.memSize) : (Memory.fill f n).wf = true := by
  induction n with
  | zero => rfl
  | succ n ih => exact Memory.wf_write _ (ih (by omega)) (by omega) _

theorem Memory.read_fill (f : MemInit) {n : Nat} (hn : n ≤ Config.memSize) {a : Nat} (ha : a < n) :
    (Memory.fill f n).read a = f a := by
  induction n with
  | zero => omega
  | succ n ih =>
    simp only [Memory.fill]
    by_cases h : a = n
    · subst h
      exact Memory.read_write_same _ (Memory.wf_fill f (by omega)) a (f a)
    · rw [Memory.read_write_other _ _ h]
      exact ih (by omega) (by omega)

theorem Memory.read_writeAll_other (vs : List Int) (m : Memory) (a b : Nat) (h : b < a ∨ a + vs.length ≤ b) :
    (Memory.writeAll m a vs).read b = m.read b := by
  induction vs generalizing m a with
  | nil => rfl
  | cons v vs ih =>
    simp only [List.length_cons] at h
    rw [Memory.writeAll, ih _ _ (by omega), Memory.read_write_other _ _ (by omega)]

theorem Memory.wf_writeAll (vs : List Int) (m : Memory) (a : Nat) (h : m.wf = true)
    (ha : a + vs.length ≤ Config.memSize) : (Memory.writeAll m a vs).wf = true := by
  induction vs generalizing m a with
  | nil => exact h
  | cons v vs ih =>
    simp only [List.length_cons] at ha
    exact ih _ _ (Memory.wf_write _ h (by omega) _) (by omega)

theorem Memory.read_writeAll (vs : List Int) (m : Memory) (a : Nat) (h : m.wf = true)
    (ha : a + vs.length ≤ Config.memSize) (j : Nat) (hj : j < vs.length) :
    (Memory.writeAll m a vs).read (a + j) = trunc8 vs[j] := by
  induction vs generalizing m a j with
  | nil => simp at hj
  | cons v vs ih =>
    simp only [List.length_cons] at ha hj
    cases j with
    | zero =>
      rw [Memory.writeAll, Memory.read_writeAll_other _ _ _ _ (by omega)]
      simpa using Memory.read_write_same m h a (trunc8 v)
    | succ j =>
      have := ih (m.write a (trunc8 v)) (a + 1) (Memory.wf_write m h (by omega) (trunc8 v)) (by omega) j (by omega)
      rw [Memory.writeAll, show a + (j + 1) = a + 1 + j by omega, this]
      rfl

theorem Memory.wf_placeBytes (bs : List Byte) (m : Memory) (a : Nat) (h : m.wf = true) :
    (placeBytes m a bs).wf = true := by
  induction bs generalizing m a with
  | nil => exact h
  | cons b bs ih =>
    refine ih _ _ ?_
    by_cases ha : a ≤ 255
    · simpa [ha] using Memory.wf_write m h (show a < 256 by omega) b
    · simpa [ha] using h

end Sys2Proof.Machine
end

