-- ==== Sys2Proof/Laws/State.lean ====
section
/-!
SUPPORT. One lemma per field per update of State, true by rfl, and the reads of a register after a write.
-/
namespace Sys2Proof.Machine

variable (s : State)

@[simp] theorem State.setReg_x (r : RegId) (v : Byte) : (s.setReg r v).x = s.x.set r v := rfl
@[simp] theorem State.setReg_pc (r : RegId) (v : Byte) : (s.setReg r v).pc = s.pc := rfl
@[simp] theorem State.setReg_fl (r : RegId) (v : Byte) : (s.setReg r v).fl = s.fl := rfl
@[simp] theorem State.setReg_is (r : RegId) (v : Byte) : (s.setReg r v).is = s.is := rfl
@[simp] theorem State.setReg_ie (r : RegId) (v : Byte) : (s.setReg r v).ie = s.ie := rfl
@[simp] theorem State.setReg_run (r : RegId) (v : Byte) : (s.setReg r v).run = s.run := rfl
@[simp] theorem State.setReg_err (r : RegId) (v : Byte) : (s.setReg r v).err = s.err := rfl
@[simp] theorem State.setReg_mem (r : RegId) (v : Byte) : (s.setReg r v).mem = s.mem := rfl
@[simp] theorem State.setReg_out (r : RegId) (v : Byte) : (s.setReg r v).out = s.out := rfl

@[simp] theorem State.setSp_x (v : Byte) : (s.setSp v).x = s.x.set spId v := rfl
@[simp] theorem State.setSp_pc (v : Byte) : (s.setSp v).pc = s.pc := rfl
@[simp] theorem State.setSp_fl (v : Byte) : (s.setSp v).fl = s.fl := rfl
@[simp] theorem State.setSp_is (v : Byte) : (s.setSp v).is = s.is := rfl
@[simp] theorem State.setSp_ie (v : Byte) : (s.setSp v).ie = s.ie := rfl
@[simp] theorem State.setSp_run (v : Byte) : (s.setSp v).run = s.run := rfl
@[simp] theorem State.setSp_err (v : Byte) : (s.setSp v).err = s.err := rfl
@[simp] theorem State.setSp_mem (v : Byte) : (s.setSp v).mem = s.mem := rfl
@[simp] theorem State.setSp_out (v : Byte) : (s.setSp v).out = s.out := rfl

@[simp] theorem State.setFL_x (v : Byte) : (s.setFL v).x = s.x := rfl
@[simp] theorem State.setFL_pc (v : Byte) : (s.setFL v).pc = s.pc := rfl
@[simp] theorem State.setFL_fl (v : Byte) : (s.setFL v).fl = v &&& 0x07 := rfl
@[simp] theorem State.setFL_is (v : Byte) : (s.setFL v).is = s.is := rfl
@[simp] theorem State.setFL_ie (v : Byte) : (s.setFL v).ie = s.ie := rfl
@[simp] theorem State.setFL_run (v : Byte) : (s.setFL v).run = s.run := rfl
@[simp] theorem State.setFL_err (v : Byte) : (s.setFL v).err = s.err := rfl
@[simp] theorem State.setFL_mem (v : Byte) : (s.setFL v).mem = s.mem := rfl
@[simp] theorem State.setFL_out (v : Byte) : (s.setFL v).out = s.out := rfl

@[simp] theorem State.setPc_x (t : PcWord) : (s.setPc t).x = s.x := rfl
@[simp] theorem State.setPc_pc (t : PcWord) : (s.setPc t).pc = t := rfl
@[simp] theorem State.setPc_fl (t : PcWord) : (s.setPc t).fl = s.fl := rfl
@[simp] theorem State.setPc_is (t : PcWord) : (s.setPc t).is = s.is := rfl
@[simp] theorem State.setPc_ie (t : PcWord) : (s.setPc t).ie = s.ie := rfl
@[simp] theorem State.setPc_run (t : PcWord) : (s.setPc t).run = s.run := rfl
@[simp] theorem State.setPc_err (t : PcWord) : (s.setPc t).err = s.err := rfl
@[simp] theorem State.setPc_mem (t : PcWord) : (s.setPc t).mem = s.mem := rfl
@[simp] theorem State.setPc_out (t : PcWord) : (s.setPc t).out = s.out := rfl

@[simp] theorem State.advance_x (n : Nat) : (s.advance n).x = s.x := rfl
@[simp] theorem State.advance_pc (n : Nat) : (s.advance n).pc = s.pc + BitVec.ofNat 9 (1 + n) := rfl
@[simp] theorem State.advance_fl (n : Nat) : (s.advance n).fl = s.fl := rfl
@[simp] theorem State.advance_is (n : Nat) : (s.advance n).is = s.is := rfl
@[simp] theorem State.advance_ie (n : Nat) : (s.advance n).ie = s.ie := rfl
@[simp] theorem State.advance_run (n : Nat) : (s.advance n).run = s.run := rfl
@[simp] theorem State.advance_err (n : Nat) : (s.advance n).err = s.err := rfl
@[simp] theorem State.advance_mem (n : Nat) : (s.advance n).mem = s.mem := rfl
@[simp] theorem State.advance_out (n : Nat) : (s.advance n).out = s.out := rfl

@[simp] theorem State.orIS_x (b : Byte) : (s.orIS b).x = s.x := rfl
@[simp] theorem State.orIS_pc (b : Byte) : (s.orIS b).pc = s.pc := rfl
@[simp] theorem State.orIS_fl (b : Byte) : (s.orIS b).fl = s.fl := rfl
@[simp] theorem State.orIS_is (b : Byte) : (s.orIS b).is = s.is ||| b := rfl
@[simp] theorem State.orIS_ie (b : Byte) : (s.orIS b).ie = s.ie := rfl
@[simp] theorem State.orIS_run (b : Byte) : (s.orIS b).run = s.run := rfl
@[simp] theorem State.orIS_err (b : Byte) : (s.orIS b).err = s.err := rfl
@[simp] theorem State.orIS_mem (b : Byte) : (s.orIS b).mem = s.mem := rfl
@[simp] theorem State.orIS_out (b : Byte) : (s.orIS b).out = s.out := rfl

@[simp] theorem State.enableIE_x : (s.enableIE).x = s.x := rfl
@[simp] theorem State.enableIE_pc : (s.enableIE).pc = s.pc := rfl
@[simp] theorem State.enableIE_fl : (s.enableIE).fl = s.fl := rfl
@[simp] theorem State.enableIE_is : (s.enableIE).is = s.is := rfl
@[simp] theorem State.enableIE_ie : (s.enableIE).ie = true := rfl
@[simp] theorem State.enableIE_run : (s.enableIE).run = s.run := rfl
@[simp] theorem State.enableIE_err : (s.enableIE).err = s.err := rfl
@[simp] theorem State.enableIE_mem : (s.enableIE).mem = s.mem := rfl
@[simp] theorem State.enableIE_out : (s.enableIE).out = s.out := rfl

@[simp] theorem State.halt_x : (s.halt).x = s.x := rfl
@[simp] theorem State.halt_pc : (s.halt).pc = s.pc := rfl
@[simp] theorem State.halt_fl : (s.halt).fl = s.fl := rfl
@[simp] theorem State.halt_is : (s.halt).is = s.is := rfl
@[simp] theorem State.halt_ie : (s.halt).ie = s.ie := rfl
@[simp] theorem State.halt_run : (s.halt).run = .halted := rfl
@[simp] theorem State.halt_err : (s.halt).err = s.err := rfl
@[simp] theorem State.halt_mem : (s.halt).mem = s.mem := rfl
@[simp] theorem State.halt_out : (s.halt).out = s.out := rfl

@[simp] theorem State.emit_x (e : OutEvent) : (s.emit e).x = s.x := rfl
@[simp] theorem State.emit_pc (e : OutEvent) : (s.emit e).pc = s.pc := rfl
@[simp] theorem State.emit_fl (e : OutEvent) : (s.emit e).fl = s.fl := rfl
@[simp] theorem State.emit_is (e : OutEvent) : (s.emit e).is = s.is := rfl
@[simp] theorem State.emit_ie (e : OutEvent) : (s.emit e).ie = s.ie := rfl
@[simp] theorem State.emit_run (e : OutEvent) : (s.emit e).run = s.run := rfl
@[simp] theorem State.emit_err (e : OutEvent) : (s.emit e).err = s.err := rfl
@[simp] theorem State.emit_mem (e : OutEvent) : (s.emit e).mem = s.mem := rfl
@[simp] theorem State.emit_out (e : OutEvent) : (s.emit e).out = s.out ++ [e] := rfl

@[simp] theorem State.store8_x (a v : Byte) : (s.store8 a v).x = s.x := rfl
@[simp] theorem State.store8_pc (a v : Byte) : (s.store8 a v).pc = s.pc := rfl
@[simp] theorem State.store8_fl (a v : Byte) : (s.store8 a v).fl = s.fl := rfl
@[simp] theorem State.store8_is (a v : Byte) : (s.store8 a v).is = s.is := rfl
@[simp] theorem State.store8_ie (a v : Byte) : (s.store8 a v).ie = s.ie := rfl
@[simp] theorem State.store8_run (a v : Byte) : (s.store8 a v).run = s.run := rfl
@[simp] theorem State.store8_err (a v : Byte) : (s.store8 a v).err = s.err := rfl
@[simp] theorem State.store8_mem (a v : Byte) : (s.store8 a v).mem = s.mem.write a.toNat v := rfl
@[simp] theorem State.store8_out (a v : Byte) : (s.store8 a v).out = s.out := rfl

@[simp] theorem State.takeError_x (e : CoreError) : (s.takeError e).x = s.x := rfl
@[simp] theorem State.takeError_pc (e : CoreError) : (s.takeError e).pc = s.pc := rfl
@[simp] theorem State.takeError_fl (e : CoreError) : (s.takeError e).fl = s.fl := rfl
@[simp] theorem State.takeError_is (e : CoreError) : (s.takeError e).is = s.is := rfl
@[simp] theorem State.takeError_ie (e : CoreError) : (s.takeError e).ie = s.ie := rfl
@[simp] theorem State.takeError_run (e : CoreError) : (s.takeError e).run = .halted := rfl
@[simp] theorem State.takeError_err (e : CoreError) : (s.takeError e).err = ⟨e.code, s.pc⟩ := rfl
@[simp] theorem State.takeError_mem (e : CoreError) : (s.takeError e).mem = s.mem := rfl
@[simp] theorem State.takeError_out (e : CoreError) : (s.takeError e).out = s.out := rfl

@[simp] theorem State.decSp_pc : (s.decSp).pc = s.pc := rfl
@[simp] theorem State.decSp_fl : (s.decSp).fl = s.fl := rfl
@[simp] theorem State.decSp_is : (s.decSp).is = s.is := rfl
@[simp] theorem State.decSp_ie : (s.decSp).ie = s.ie := rfl
@[simp] theorem State.decSp_run : (s.decSp).run = s.run := rfl
@[simp] theorem State.decSp_err : (s.decSp).err = s.err := rfl
@[simp] theorem State.decSp_mem : (s.decSp).mem = s.mem := rfl
@[simp] theorem State.decSp_out : (s.decSp).out = s.out := rfl

@[simp] theorem State.incSp_pc : (s.incSp).pc = s.pc := rfl
@[simp] theorem State.incSp_fl : (s.incSp).fl = s.fl := rfl
@[simp] theorem State.incSp_is : (s.incSp).is = s.is := rfl
@[simp] theorem State.incSp_ie : (s.incSp).ie = s.ie := rfl
@[simp] theorem State.incSp_run : (s.incSp).run = s.run := rfl
@[simp] theorem State.incSp_err : (s.incSp).err = s.err := rfl
@[simp] theorem State.incSp_mem : (s.incSp).mem = s.mem := rfl
@[simp] theorem State.incSp_out : (s.incSp).out = s.out := rfl

@[simp] theorem State.popReg_pc (r : RegId) : (s.popReg r).pc = s.pc := rfl
@[simp] theorem State.popReg_fl (r : RegId) : (s.popReg r).fl = s.fl := rfl
@[simp] theorem State.popReg_is (r : RegId) : (s.popReg r).is = s.is := rfl
@[simp] theorem State.popReg_ie (r : RegId) : (s.popReg r).ie = s.ie := rfl
@[simp] theorem State.popReg_run (r : RegId) : (s.popReg r).run = s.run := rfl
@[simp] theorem State.popReg_err (r : RegId) : (s.popReg r).err = s.err := rfl
@[simp] theorem State.popReg_mem (r : RegId) : (s.popReg r).mem = s.mem := rfl
@[simp] theorem State.popReg_out (r : RegId) : (s.popReg r).out = s.out := rfl

@[simp] theorem State.popFL_pc : (s.popFL).pc = s.pc := rfl
@[simp] theorem State.popFL_fl : (s.popFL).fl = s.load8 s.sp &&& 0x07 := rfl
@[simp] theorem State.popFL_is : (s.popFL).is = s.is := rfl
@[simp] theorem State.popFL_ie : (s.popFL).ie = s.ie := rfl
@[simp] theorem State.popFL_run : (s.popFL).run = s.run := rfl
@[simp] theorem State.popFL_err : (s.popFL).err = s.err := rfl
@[simp] theorem State.popFL_mem : (s.popFL).mem = s.mem := rfl
@[simp] theorem State.popFL_out : (s.popFL).out = s.out := rfl

@[simp] theorem State.popPc_pc : (s.popPc).pc = pcOfByte (s.load8 s.sp) := rfl
@[simp] theorem State.popPc_fl : (s.popPc).fl = s.fl := rfl
@[simp] theorem State.popPc_is : (s.popPc).is = s.is := rfl
@[simp] theorem State.popPc_ie : (s.popPc).ie = s.ie := rfl
@[simp] theorem State.popPc_run : (s.popPc).run = s.run := rfl
@[simp] theorem State.popPc_err : (s.popPc).err = s.err := rfl
@[simp] theorem State.popPc_mem : (s.popPc).mem = s.mem := rfl
@[simp] theorem State.popPc_out : (s.popPc).out = s.out := rfl

@[simp] theorem State.returnFromInterrupt_is : (s.returnFromInterrupt).is = s.is := by
  simp [State.returnFromInterrupt]
@[simp] theorem State.returnFromInterrupt_ie : (s.returnFromInterrupt).ie = true := by
  simp [State.returnFromInterrupt]
@[simp] theorem State.returnFromInterrupt_run : (s.returnFromInterrupt).run = s.run := by
  simp [State.returnFromInterrupt]
@[simp] theorem State.returnFromInterrupt_err : (s.returnFromInterrupt).err = s.err := by
  simp [State.returnFromInterrupt]
@[simp] theorem State.returnFromInterrupt_mem : (s.returnFromInterrupt).mem = s.mem := by
  simp [State.returnFromInterrupt]
@[simp] theorem State.returnFromInterrupt_out : (s.returnFromInterrupt).out = s.out := by
  simp [State.returnFromInterrupt]

/-! ### Registers after a write -/

@[simp] theorem State.reg_setReg_self (r : RegId) (v : Byte) : (s.setReg r v).reg r = v := by
  simp [State.reg, State.setReg]

theorem State.reg_setReg (r q : RegId) (v : Byte) : (s.setReg r v).reg q = if q = r then v else s.reg q := by
  by_cases h : q = r
  · simp [h]
  · have h' : r.val ≠ q.val := fun e => h (Fin.ext e.symm)
    simp [State.reg, State.setReg, h, h']

theorem State.reg_setReg_of_ne {r q : RegId} (h : q ≠ r) (v : Byte) : (s.setReg r v).reg q = s.reg q := by
  rw [State.reg_setReg, if_neg h]

@[simp] theorem State.reg_setFL (v : Byte) (q : RegId) : (s.setFL v).reg q = s.reg q := rfl
@[simp] theorem State.reg_setPc (t : PcWord) (q : RegId) : (s.setPc t).reg q = s.reg q := rfl
@[simp] theorem State.reg_advance (n : Nat) (q : RegId) : (s.advance n).reg q = s.reg q := rfl
@[simp] theorem State.reg_orIS (b : Byte) (q : RegId) : (s.orIS b).reg q = s.reg q := rfl
@[simp] theorem State.reg_enableIE (q : RegId) : (s.enableIE).reg q = s.reg q := rfl
@[simp] theorem State.reg_halt (q : RegId) : (s.halt).reg q = s.reg q := rfl
@[simp] theorem State.reg_emit (e : OutEvent) (q : RegId) : (s.emit e).reg q = s.reg q := rfl
@[simp] theorem State.reg_store8 (a v : Byte) (q : RegId) : (s.store8 a v).reg q = s.reg q := rfl
@[simp] theorem State.reg_takeError (e : CoreError) (q : RegId) : (s.takeError e).reg q = s.reg q := rfl

/-! ### The stack pointer -/

theorem trunc8_succ (a : Byte) : trunc8 ((a.toNat : Int) + 1) = a + 1 := by
  simp [trunc8, BitVec.ofInt_add, BitVec.ofInt_natCast]

theorem trunc8_pred (a : Byte) : trunc8 ((a.toNat : Int) - 1) = a - 1 := by
  apply BitVec.eq_of_toNat_eq
  have h := a.isLt
  have h1 : (1 : Byte).toNat = 1 := rfl
  simp only [trunc8, BitVec.toNat_ofInt, BitVec.toNat_sub, h1]
  omega

theorem State.decSp_eq : s.decSp = s.setSp (s.sp - 1) := by
  rw [State.decSp, trunc8_pred]

theorem State.incSp_eq : s.incSp = s.setSp (s.sp + 1) := by
  rw [State.incSp, trunc8_succ]

@[simp] theorem State.sp_setSp (v : Byte) : (s.setSp v).sp = v := s.reg_setReg_self spId v

theorem State.reg_setSp (q : RegId) (v : Byte) : (s.setSp v).reg q = if q = spId then v else s.reg q :=
  s.reg_setReg spId q v

@[simp] theorem State.sp_decSp : s.decSp.sp = s.sp - 1 := by rw [State.decSp_eq, State.sp_setSp]

@[simp] theorem State.sp_incSp : s.incSp.sp = s.sp + 1 := by rw [State.incSp_eq, State.sp_setSp]

theorem State.reg_decSp (q : RegId) : s.decSp.reg q = if q = spId then s.sp - 1 else s.reg q := by
  rw [State.decSp_eq, State.reg_setSp]

theorem State.reg_incSp (q : RegId) : s.incSp.reg q = if q = spId then s.sp + 1 else s.reg q := by
  rw [State.incSp_eq, State.reg_setSp]

end Sys2Proof.Machine
end

