-- ==== Sys2Proof/Laws/Operands.lean ====
section
/-!
SUPPORT. What the operand forms do (rules R116, R118): a register index in range names its register, the first one
above 7 ends the step, and a form answers the handler's state or the error's.
-/
namespace Sys2Proof.Machine

theorem regOf_ok {i : RegOperand} (h : i.toNat < 8) : regOf i = .ok ⟨i.toNat, h⟩ := dif_pos h

theorem regOf_error {i : RegOperand} (h : ¬ i.toNat < 8) : regOf i = .error (.registerOutOfRange i) := dif_neg h

theorem takeError_eq_failed (s : State) (e : CoreError) : s.takeError e = s.failed e.code := rfl

@[simp] theorem settle_ok (s t : State) : settle s (.ok t) = .next t := rfl

@[simp] theorem settle_error (s : State) (e : CoreError) : settle s (.error e) = .next (s.failed e.code) := rfl

theorem settle_next (s : State) (r : Except CoreError State) : ∃ t, settle s r = .next t := by
  cases r <;> exact ⟨_, rfl⟩

/-! ### One register operand -/

theorem withReg_ok {opA : RegOperand} (h : opA.toNat < 8) (s : State) (f : RegId → Except CoreError State) :
    withReg opA s f = settle s (f ⟨opA.toNat, h⟩) := by
  simp [withReg, regOf_ok h]

theorem withReg_bad {opA : RegOperand} (h : ¬ opA.toNat < 8) (s : State) (f : RegId → Except CoreError State) :
    withReg opA s f = .next (s.failed 2) := by
  simp [withReg, regOf_error h, CoreError.code]

/-- Everything the one-operand form can answer. -/
theorem withReg_cases {opA : RegOperand} {s t : State} {f : RegId → Except CoreError State}
    (h : withReg opA s f = .next t) :
    (¬ opA.toNat < 8 ∧ t = s.failed 2) ∨ ∃ ha : opA.toNat < 8, settle s (f ⟨opA.toNat, ha⟩) = .next t := by
  by_cases ha : opA.toNat < 8
  · exact .inr ⟨ha, by rw [← withReg_ok ha]; exact h⟩
  · rw [withReg_bad ha] at h
    cases h
    exact .inl ⟨ha, rfl⟩

/-! ### Two register operands -/

theorem withRegReg_ok {opA opB : RegOperand} (ha : opA.toNat < 8) (hb : opB.toNat < 8) (s : State)
    (f : RegId → RegId → Except CoreError State) :
    withRegReg opA opB s f = settle s (f ⟨opA.toNat, ha⟩ ⟨opB.toNat, hb⟩) := by
  simp [withRegReg, regOf_ok ha, regOf_ok hb]

theorem withRegReg_bad {opA opB : RegOperand} (h : ¬ (opA.toNat < 8 ∧ opB.toNat < 8)) (s : State)
    (f : RegId → RegId → Except CoreError State) : withRegReg opA opB s f = .next (s.failed 2) := by
  by_cases ha : opA.toNat < 8
  · have hb : ¬ opB.toNat < 8 := fun hb => h ⟨ha, hb⟩
    simp [withRegReg, regOf_ok ha, regOf_error hb, CoreError.code]
  · simp [withRegReg, regOf_error ha, CoreError.code]

/-- Everything the two-operand form can answer. -/
theorem withRegReg_cases {opA opB : RegOperand} {s t : State} {f : RegId → RegId → Except CoreError State}
    (h : withRegReg opA opB s f = .next t) :
    (¬ (opA.toNat < 8 ∧ opB.toNat < 8) ∧ t = s.failed 2) ∨
    ∃ (ha : opA.toNat < 8) (hb : opB.toNat < 8), settle s (f ⟨opA.toNat, ha⟩ ⟨opB.toNat, hb⟩) = .next t := by
  by_cases hab : opA.toNat < 8 ∧ opB.toNat < 8
  · exact .inr ⟨hab.1, hab.2, by rw [← withRegReg_ok hab.1 hab.2]; exact h⟩
  · rw [withRegReg_bad hab] at h
    cases h
    exact .inl ⟨hab, rfl⟩

/-! ### Applying an ALU result -/

@[simp] theorem applyAlu_byte (v : Byte) (d : RegId) (s : State) : applyAlu (.byte v) d s = .ok (s.setReg d v) := rfl

@[simp] theorem applyAlu_flags (f : BitVec 3) (d : RegId) (s : State) :
    applyAlu (.flags f) d s = .ok (s.setFL (f.setWidth 8)) := rfl

@[simp] theorem applyAlu_divideByZero (d : RegId) (s : State) :
    applyAlu .divideByZero d s = .error (.divideByZero s.pc) := rfl

@[simp] theorem map_ok (f : State → State) (s : State) : (Except.ok s : Except CoreError State).map f = .ok (f s) := rfl

@[simp] theorem map_error (f : State → State) (e : CoreError) :
    (Except.error e : Except CoreError State).map f = .error e := rfl

/-- Everything a register-register ALU instruction can answer. -/
theorem aluRegReg_cases {op : AluOp} {opA opB : RegOperand} {s t : State} (h : aluRegReg op opA opB s = .next t) :
    (¬ (opA.toNat < 8 ∧ opB.toNat < 8) ∧ t = s.failed 2) ∨
    ∃ (ha : opA.toNat < 8) (hb : opB.toNat < 8),
      (∃ v, aluApply op (s.reg ⟨_, ha⟩) (s.reg ⟨_, hb⟩) = .byte v ∧ t = (s.setReg ⟨_, ha⟩ v).advance 2) ∨
      (∃ f, aluApply op (s.reg ⟨_, ha⟩) (s.reg ⟨_, hb⟩) = .flags f ∧ t = (s.setFL (f.setWidth 8)).advance 2) ∨
      (aluApply op (s.reg ⟨_, ha⟩) (s.reg ⟨_, hb⟩) = .divideByZero ∧ t = s.failed 3) := by
  rcases withRegReg_cases h with h | ⟨ha, hb, h⟩
  · exact .inl h
  · refine .inr ⟨ha, hb, ?_⟩
    cases hr : aluApply op (s.reg ⟨_, ha⟩) (s.reg ⟨_, hb⟩) with
    | byte v => simp only [hr, applyAlu_byte, map_ok, settle_ok] at h; cases h; exact .inl ⟨v, rfl, rfl⟩
    | flags f => simp only [hr, applyAlu_flags, map_ok, settle_ok] at h; cases h; exact .inr (.inl ⟨f, rfl, rfl⟩)
    | divideByZero =>
      simp only [hr, applyAlu_divideByZero, map_error, settle_error] at h; cases h; exact .inr (.inr ⟨rfl, rfl⟩)

/-- A register-register ALU instruction whose result is a byte. -/
theorem aluRegReg_byte {op : AluOp} {opA opB : RegOperand} (ha : opA.toNat < 8) (hb : opB.toNat < 8) {s : State}
    {v : Byte} (h : aluApply op (s.reg ⟨_, ha⟩) (s.reg ⟨_, hb⟩) = .byte v) :
    aluRegReg op opA opB s = .next ((s.setReg ⟨_, ha⟩ v).advance 2) := by
  rw [aluRegReg, withRegReg_ok ha hb, h]
  rfl

/-- A unary ALU instruction whose result is a byte. -/
theorem aluReg_byte {op : AluOp} {opA : RegOperand} (ha : opA.toNat < 8) {s : State} {v : Byte}
    (h : aluApply op (s.reg ⟨_, ha⟩) 0 = .byte v) : aluReg op opA s = .next ((s.setReg ⟨_, ha⟩ v).advance 1) := by
  rw [aluReg, withReg_ok ha, h]
  rfl

end Sys2Proof.Machine
end

