-- ==== Sys2Proof/Laws/Exec.lean ====
section
/-!
SUPPORT. Everything `exec` can do, said once (`exec_cases`): an instruction ends in RegisterOutOfRange exactly when it
is ill-formed, in DivideByZero only if it is DIV or MOD, and otherwise changes nothing but pc and what `Instr.writes`
names.
-/
namespace Sys2Proof.Machine

/-- The register an operand byte names, for the frame: none above 7. -/
def regList (i : RegOperand) : List RegId := if h : i.toNat < 8 then [⟨i.toNat, h⟩] else []

theorem regList_of {i : RegOperand} (h : i.toNat < 8) : regList i = [⟨i.toNat, h⟩] := dif_pos h

/-- What an instruction executed at `s` may write beside pc (rules R27, R28, R51, R56, R130 to R235). -/
def Instr.writes (i : Instr) (s : State) : Writes :=
  match i with
  | .ldi a _ | .add a _ | .sub a _ | .mul a _ | .div a _ | .mod a _ | .and a _ | .or a _ | .xor a _
  | .inc a | .dec a | .not a => { regs := regList a }
  | .ld _ b => { regs := regList b }
  | .cmp _ _ => { fl := true }
  | .jmp _ | .jeq _ | .jne _ | .jgt _ | .jlt _ | .nop => {}
  | .call _ | .push _ => { regs := [7], cells := [s.decSp.sp.toNat] }
  | .ret => { regs := [7] }
  | .pop a => { regs := 7 :: regList a }
  | .st a _ => { cells := (regList a).map fun r => (s.reg r).toNat }
  | .prn _ | .pra _ => { out := true }
  | .hlt => { run := true }
  | .int _ => { is := true }
  | .iret => { regs := [0, 1, 2, 3, 4, 5, 6, 7], fl := true, ie := true }

/-! ### Frames of the updates -/

theorem Frame.setReg_advance (s : State) (r : RegId) (v : Byte) (n : Nat) :
    Frame { regs := [r] } s ((s.setReg r v).advance n) where
  regs q hq := by simpa using s.reg_setReg_of_ne (by simpa using hq) v
  cells _ _ := rfl
  fl _ := rfl
  is _ := rfl
  ie _ := rfl
  run _ := rfl
  err _ := rfl
  out _ := rfl

theorem Frame.setFL_advance (s : State) (v : Byte) (n : Nat) : Frame { fl := true } s ((s.setFL v).advance n) :=
  ⟨fun _ _ => rfl, fun _ _ => rfl, (fun h => by cases h), fun _ => rfl, fun _ => rfl, fun _ => rfl, fun _ => rfl,
    fun _ => rfl⟩

theorem Frame.setPc (s : State) (t : PcWord) : Frame {} s (s.setPc t) :=
  ⟨fun _ _ => rfl, fun _ _ => rfl, fun _ => rfl, fun _ => rfl, fun _ => rfl, fun _ => rfl, fun _ => rfl, fun _ => rfl⟩

theorem Frame.advance (s : State) (n : Nat) : Frame {} s (s.advance n) := Frame.setPc s _

theorem Frame.emit_advance (s : State) (e : OutEvent) (n : Nat) : Frame { out := true } s ((s.emit e).advance n) :=
  ⟨fun _ _ => rfl, fun _ _ => rfl, fun _ => rfl, fun _ => rfl, fun _ => rfl, fun _ => rfl, fun _ => rfl,
    (fun h => by cases h)⟩

theorem Frame.halt_advance (s : State) (n : Nat) : Frame { run := true } s (s.halt.advance n) :=
  ⟨fun _ _ => rfl, fun _ _ => rfl, fun _ => rfl, fun _ => rfl, fun _ => rfl, (fun h => by cases h), fun _ => rfl,
    fun _ => rfl⟩

theorem Frame.orIS_advance (s : State) (b : Byte) (n : Nat) : Frame { is := true } s ((s.orIS b).advance n) :=
  ⟨fun _ _ => rfl, fun _ _ => rfl, fun _ => rfl, (fun h => by cases h), fun _ => rfl, fun _ => rfl, fun _ => rfl,
    fun _ => rfl⟩

theorem Frame.store8_advance (s : State) (a v : Byte) (n : Nat) :
    Frame { cells := [a.toNat] } s ((s.store8 a v).advance n) where
  regs _ _ := rfl
  cells b hb := by simpa using Memory.read_write_other s.mem v (by simpa using hb)
  fl _ := rfl
  is _ := rfl
  ie _ := rfl
  run _ := rfl
  err _ := rfl
  out _ := rfl

/-- The push of PUSH and CALL, then a write of pc. -/
theorem Frame.push_setPc (s : State) (v : Byte) (t : PcWord) :
    Frame { regs := [7], cells := [s.decSp.sp.toNat] } s ((s.decSp.store8 s.decSp.sp v).setPc t) where
  regs q hq := by
    have hq' : q ≠ spId := by simpa [spId] using hq
    simp [State.reg_decSp, hq']
  cells b hb := by
    have := Memory.read_write_other s.mem v (show b ≠ s.decSp.sp.toNat by simpa using hb)
    simpa using this
  fl _ := rfl
  is _ := rfl
  ie _ := rfl
  run _ := rfl
  err _ := rfl
  out _ := rfl

theorem State.reg_popReg (s : State) (r q : RegId) :
    (s.popReg r).reg q =
      if q = spId then (s.setReg r (s.load8 s.sp)).sp + 1 else if q = r then s.load8 s.sp else s.reg q := by
  rw [State.popReg, State.reg_incSp, State.reg_setReg]

theorem State.reg_popFL (s : State) (q : RegId) : s.popFL.reg q = if q = spId then s.sp + 1 else s.reg q := by
  rw [State.popFL, State.reg_incSp]
  rfl

theorem State.reg_popPc (s : State) (q : RegId) : s.popPc.reg q = if q = spId then s.sp + 1 else s.reg q := by
  rw [State.popPc, State.reg_incSp]
  rfl

/-- A pop into a register other than SP moves SP by one. -/
theorem State.sp_popReg (s : State) {r : RegId} (h : r ≠ spId) : (s.popReg r).sp = s.sp + 1 := by
  rw [State.sp, State.reg_popReg, if_pos rfl, State.sp, State.reg_setReg_of_ne _ h.symm]
  rfl

@[simp] theorem State.load8_popReg (s : State) (r : RegId) (a : Byte) : (s.popReg r).load8 a = s.load8 a := rfl

@[simp] theorem State.load8_popFL (s : State) (a : Byte) : s.popFL.load8 a = s.load8 a := rfl

@[simp] theorem State.sp_popFL (s : State) : s.popFL.sp = s.sp + 1 := by simp [State.popFL, State.sp, State.reg_incSp]

@[simp] theorem State.sp_popPc (s : State) : s.popPc.sp = s.sp + 1 := by simp [State.popPc, State.sp, State.reg_incSp]

theorem Frame.popReg_advance (s : State) (r : RegId) (n : Nat) : Frame { regs := [7, r] } s ((s.popReg r).advance n) where
  regs q hq := by
    have h1 : q ≠ spId := fun e => hq (by simp [e, spId])
    have h2 : q ≠ r := fun e => hq (by simp [e])
    simp [State.reg_popReg, h1, h2]
  cells _ _ := rfl
  fl _ := rfl
  is _ := rfl
  ie _ := rfl
  run _ := rfl
  err _ := rfl
  out _ := rfl

theorem Frame.popPc (s : State) : Frame { regs := [7] } s s.popPc where
  regs q hq := by
    have h1 : q ≠ spId := by simpa [spId] using hq
    simp [State.reg_popPc, h1]
  cells _ _ := rfl
  fl _ := rfl
  is _ := rfl
  ie _ := rfl
  run _ := rfl
  err _ := rfl
  out _ := rfl

/-- Where IRET goes: the ninth byte of the frame, read before the pops as well as after (rule R235). -/
theorem State.pc_returnFromInterrupt (s : State) : s.returnFromInterrupt.pc = pcOfByte (s.load8 (s.sp + 8)) := by
  simp only [State.returnFromInterrupt, State.enableIE_pc, State.popPc_pc, State.sp_popFL,
    State.sp_popReg _ (show (0 : RegId) ≠ spId by decide), State.sp_popReg _ (show (1 : RegId) ≠ spId by decide),
    State.sp_popReg _ (show (2 : RegId) ≠ spId by decide), State.sp_popReg _ (show (3 : RegId) ≠ spId by decide),
    State.sp_popReg _ (show (4 : RegId) ≠ spId by decide), State.sp_popReg _ (show (5 : RegId) ≠ spId by decide),
    State.sp_popReg _ (show (6 : RegId) ≠ spId by decide), State.load8_popReg, State.load8_popFL, BitVec.add_assoc]
  rfl

theorem Frame.returnFromInterrupt (s : State) :
    Frame { regs := [0, 1, 2, 3, 4, 5, 6, 7], fl := true, ie := true } s s.returnFromInterrupt where
  regs q hq := absurd hq (by revert q; decide)
  cells _ _ := by simp
  fl h := by cases h
  is _ := by simp
  ie h := by cases h
  run _ := by simp
  err _ := by simp
  out _ := by simp

/-! ### What every update keeps -/

/-- What no instruction breaks: the canonical memory, FL's hardwired bits, the set bits of IS, IE, and the events already
output (rules R26, R29, R30, R33, R50). -/
structure Keeps (s t : State) : Prop where
  mem : s.mem.wf = true → t.mem.wf = true
  fl : t.fl = s.fl ∨ t.fl.toNat < 8
  is : ∀ k, s.is.getLsbD k = true → t.is.getLsbD k = true
  ie : s.ie = true → t.ie = true
  out : ∃ es, t.out = s.out ++ es ∧ es.length ≤ 1

theorem Keeps.refl (s : State) : Keeps s s := ⟨id, .inl rfl, fun _ => id, id, [], by simp, by simp⟩

/-- A change of registers and pc alone. -/
theorem Keeps.of_eq {s t : State} (h : { t with x := s.x, pc := s.pc } = s) : Keeps s t := by
  obtain ⟨x, pc, fl, is, ie, run, err, mem, out⟩ := s
  obtain ⟨x', pc', fl', is', ie', run', err', mem', out'⟩ := t
  simp only [State.mk.injEq, true_and] at h
  obtain ⟨rfl, rfl, rfl, rfl, rfl, rfl, rfl⟩ := h
  exact ⟨id, .inl rfl, fun _ => id, id, [], by simp, by simp⟩

/-- A change of registers and pc after another. -/
theorem Keeps.then_eq {s t u : State} (h : Keeps s t) (e : { u with x := t.x, pc := t.pc } = t) : Keeps s u := by
  obtain ⟨x, pc, fl, is, ie, run, err, mem, out⟩ := t
  obtain ⟨x', pc', fl', is', ie', run', err', mem', out'⟩ := u
  simp only [State.mk.injEq, true_and] at e
  obtain ⟨rfl, rfl, rfl, rfl, rfl, rfl, rfl⟩ := e
  exact ⟨h.mem, h.fl, h.is, h.ie, h.out⟩

theorem masked_lt (v : Byte) : (v &&& 0x07 : Byte).toNat < 8 := by
  rw [BitVec.toNat_and]
  exact Nat.lt_succ_of_le Nat.and_le_right

theorem Keeps.setFL (s : State) (v : Byte) : Keeps s (s.setFL v) :=
  ⟨id, .inr (masked_lt v), fun _ => id, id, [], by simp, by simp⟩

theorem Keeps.store8 (s : State) (a v : Byte) : Keeps s (s.store8 a v) :=
  ⟨fun h => Memory.wf_write_byte _ h a v, .inl rfl, fun _ => id, id, [], by simp, by simp⟩

theorem Keeps.orIS (s : State) (b : Byte) : Keeps s (s.orIS b) :=
  ⟨id, .inl rfl, fun k h => by simp [h], id, [], by simp, by simp⟩

theorem Keeps.emit (s : State) (e : OutEvent) : Keeps s (s.emit e) :=
  ⟨id, .inl rfl, fun _ => id, id, [e], rfl, by simp⟩

theorem Keeps.halt (s : State) : Keeps s s.halt := ⟨id, .inl rfl, fun _ => id, id, [], by simp, by simp⟩

theorem Keeps.failed (s : State) (c : BitVec 3) : Keeps s (s.failed c) :=
  ⟨id, .inl rfl, fun _ => id, id, [], by simp [State.failed], by simp⟩

theorem Keeps.returnFromInterrupt (s : State) : Keeps s s.returnFromInterrupt where
  mem h := by simpa using h
  fl := by
    refine .inr ?_
    simp only [State.returnFromInterrupt, State.enableIE_fl, State.popPc_fl, State.popFL_fl]
    exact masked_lt _
  is k h := by simpa using h
  ie _ := by simp
  out := ⟨[], by simp, by simp⟩

/-! ### The instructions -/

/-- The mnemonics that write pc themselves (rule R113). -/
def transfers : List Mnemonic := [.jmp, .jeq, .jne, .jgt, .jlt, .call, .ret, .iret]

/-- An instruction that ends without an error: its frame, its pc, and what it keeps. -/
structure Effect (i : Instr) (s t : State) : Prop where
  frame : Frame (Instr.writes i s) s t
  pc : t.pc = s.pc + BitVec.ofNat 9 i.length ∨ (i.mnemonic ∈ transfers ∧ ∃ b, t.pc = pcOfByte b)
  keeps : Keeps s t

theorem wellFormed_one {r : RegOperand} : ([r].all RegOperand.inRange = true) ↔ r.toNat < 8 := by
  simp [RegOperand.inRange]

theorem wellFormed_two {a b : RegOperand} :
    ([a, b].all RegOperand.inRange = true) ↔ a.toNat < 8 ∧ b.toNat < 8 := by
  simp [RegOperand.inRange]

/-- How an instruction can end. -/
structure ExecSpec (i : Instr) (s t : State) : Prop where
  ends :
    (i.wellFormed = false ∧ t = s.failed 2) ∨
    (i.wellFormed = true ∧ i.mnemonic ∈ [Mnemonic.div, .mod] ∧ t = s.failed 3) ∨
    (i.wellFormed = true ∧ Effect i s t)

theorem ExecSpec.reg {i : Instr} {r : RegOperand} {s t : State} (f : RegId → State)
    (hi : i.registerOperands = [r]) (h : withReg r s (fun a => .ok (f a)) = .next t)
    (hf : ∀ hr : r.toNat < 8, Effect i s (f ⟨r.toNat, hr⟩)) : ExecSpec i s t := by
  refine ⟨?_⟩
  rcases withReg_cases h with ⟨hr, rfl⟩ | ⟨hr, h⟩
  · refine .inl ⟨?_, rfl⟩
    rw [Instr.wellFormed, hi, Bool.eq_false_iff, ne_eq, wellFormed_one]
    exact hr
  · rw [settle_ok] at h
    cases h
    refine .inr (.inr ⟨?_, hf hr⟩)
    rw [Instr.wellFormed, hi, wellFormed_one]
    exact hr

theorem ExecSpec.regReg {i : Instr} {a b : RegOperand} {s t : State} (f : RegId → RegId → State)
    (hi : i.registerOperands = [a, b]) (h : withRegReg a b s (fun x y => .ok (f x y)) = .next t)
    (hf : ∀ (ha : a.toNat < 8) (hb : b.toNat < 8), Effect i s (f ⟨a.toNat, ha⟩ ⟨b.toNat, hb⟩)) :
    ExecSpec i s t := by
  refine ⟨?_⟩
  rcases withRegReg_cases h with ⟨hab, rfl⟩ | ⟨ha, hb, h⟩
  · refine .inl ⟨?_, rfl⟩
    rw [Instr.wellFormed, hi, Bool.eq_false_iff, ne_eq, wellFormed_two]
    exact hab
  · rw [settle_ok] at h
    cases h
    refine .inr (.inr ⟨?_, hf ha hb⟩)
    rw [Instr.wellFormed, hi, wellFormed_two]
    exact ⟨ha, hb⟩

/-- The ALU operations whose result is always a byte or always the flags, by their frames. -/
theorem ExecSpec.aluRegReg {i : Instr} {op : AluOp} {a b : RegOperand} {s t : State}
    (hi : i.registerOperands = [a, b]) (hl : i.length = 3) (h : Machine.aluRegReg op a b s = .next t)
    (hbyte : ∀ x y v, aluApply op x y = .byte v → Instr.writes i s = { regs := regList a })
    (hflags : ∀ x y f, aluApply op x y = .flags f → Instr.writes i s = { fl := true })
    (hdiv : ∀ x y, aluApply op x y = .divideByZero → i.mnemonic ∈ [Mnemonic.div, .mod]) : ExecSpec i s t := by
  refine ⟨?_⟩
  rcases aluRegReg_cases h with ⟨hab, rfl⟩ | ⟨ha, hb, hr⟩
  · refine .inl ⟨?_, rfl⟩
    rw [Instr.wellFormed, hi, Bool.eq_false_iff, ne_eq, wellFormed_two]
    exact hab
  · have hw : i.wellFormed = true := by
      rw [Instr.wellFormed, hi, wellFormed_two]
      exact ⟨ha, hb⟩
    rcases hr with ⟨v, hv, rfl⟩ | ⟨f, hf, rfl⟩ | ⟨hd, rfl⟩
    · refine .inr (.inr ⟨hw, ?_, .inl (by rw [hl]; rfl), Keeps.of_eq rfl⟩)
      rw [hbyte _ _ _ hv, regList_of ha]
      exact Frame.setReg_advance s _ v 2
    · refine .inr (.inr ⟨hw, ?_, .inl (by rw [hl]; rfl), (Keeps.setFL s _).then_eq rfl⟩)
      rw [hflags _ _ _ hf]
      exact Frame.setFL_advance s _ 2
    · exact .inr (.inl ⟨hw, hdiv _ _ hd, rfl⟩)

/-- A register-register operation whose result is always a byte. -/
theorem ExecSpec.aluByte {i : Instr} {op : AluOp} {a b : RegOperand} {s t : State} (g : Byte → Byte → Byte)
    (hop : ∀ x y, aluApply op x y = .byte (g x y)) (hi : i.registerOperands = [a, b]) (hl : i.length = 3)
    (hw : Instr.writes i s = { regs := regList a }) (h : Machine.aluRegReg op a b s = .next t) : ExecSpec i s t :=
  ExecSpec.aluRegReg hi hl h (fun _ _ _ _ => hw) (fun x y f hf => by rw [hop x y] at hf; cases hf)
    (fun x y hd => by rw [hop x y] at hd; cases hd)

theorem ExecSpec.aluReg {i : Instr} {op : AluOp} {r : RegOperand} {s t : State} (g : Byte → Byte)
    (hop : ∀ x, aluApply op x 0 = .byte (g x)) (hi : i.registerOperands = [r]) (hl : i.length = 2)
    (hw : Instr.writes i s = { regs := regList r }) (h : Machine.aluReg op r s = .next t) : ExecSpec i s t := by
  refine ExecSpec.reg (fun a => (s.setReg a (g (s.reg a))).advance 1) hi ?_ fun hr => ?_
  · simpa only [Machine.aluReg, hop, applyAlu_byte, map_ok] using h
  · refine ⟨?_, .inl (by rw [hl]; rfl), Keeps.of_eq rfl⟩
    rw [hw, regList_of hr]
    exact Frame.setReg_advance s _ _ 1

theorem ExecSpec.jump {i : Instr} {c : Cond} {r : RegOperand} {s t : State} (hi : i.registerOperands = [r])
    (hl : i.length = 2) (hm : i.mnemonic ∈ transfers) (hw : Instr.writes i s = {}) (h : jumpIf c r s = .next t) :
    ExecSpec i s t := by
  refine ExecSpec.reg (fun a => if c.holds s.flags then s.setPc (pcOfByte (s.reg a)) else s.advance 1) hi h fun hr => ?_
  by_cases hc : c.holds s.flags = true
  · simp only [hc, if_true]
    exact ⟨hw ▸ Frame.setPc s _, .inr ⟨hm, _, rfl⟩, Keeps.of_eq rfl⟩
  · simp only [hc]
    exact ⟨hw ▸ Frame.advance s 1, .inl (by rw [hl]; rfl), Keeps.of_eq rfl⟩

theorem ExecSpec.none {i : Instr} {s t u : State} (hi : i.registerOperands = [])
    (h : withNone s (.ok u) = .next t) (hf : Effect i s u) : ExecSpec i s t := by
  cases h
  exact ⟨.inr (.inr ⟨by rw [Instr.wellFormed, hi]; rfl, hf⟩)⟩

/-- Everything an instruction can do. -/
theorem exec_cases {i : Instr} {s t : State} (h : exec i s = .next t) : ExecSpec i s t := by
  cases i with
  | ldi a imm =>
    refine ExecSpec.reg (fun r => (s.setReg r imm).advance 2) rfl h fun hr => ⟨?_, .inl rfl, Keeps.of_eq rfl⟩
    simpa only [Instr.writes, regList_of hr] using Frame.setReg_advance s _ imm 2
  | add a b => exact ExecSpec.aluByte _ (fun _ _ => rfl) rfl rfl rfl h
  | sub a b => exact ExecSpec.aluByte _ (fun _ _ => rfl) rfl rfl rfl h
  | mul a b => exact ExecSpec.aluByte _ (fun _ _ => rfl) rfl rfl rfl h
  | div a b =>
    exact ExecSpec.aluRegReg rfl rfl h (fun _ _ _ _ => rfl)
      (fun x y f hf => by simp only [aluApply] at hf; split at hf <;> cases hf) (fun _ _ _ => by simp [Instr.mnemonic])
  | mod a b =>
    exact ExecSpec.aluRegReg rfl rfl h (fun _ _ _ _ => rfl)
      (fun x y f hf => by simp only [aluApply] at hf; split at hf <;> cases hf) (fun _ _ _ => by simp [Instr.mnemonic])
  | and a b => exact ExecSpec.aluByte _ (fun _ _ => rfl) rfl rfl rfl h
  | or a b => exact ExecSpec.aluByte _ (fun _ _ => rfl) rfl rfl rfl h
  | xor a b => exact ExecSpec.aluByte _ (fun _ _ => rfl) rfl rfl rfl h
  | inc r => exact ExecSpec.aluReg _ (fun _ => rfl) rfl rfl rfl h
  | dec r => exact ExecSpec.aluReg _ (fun _ => rfl) rfl rfl rfl h
  | not r => exact ExecSpec.aluReg _ (fun _ => rfl) rfl rfl rfl h
  | cmp a b =>
    exact ExecSpec.aluRegReg rfl rfl h (fun x y v hv => by cases hv) (fun _ _ _ _ => rfl) (fun x y hd => by cases hd)
  | jmp r => exact ExecSpec.jump rfl rfl (by simp [transfers, Instr.mnemonic]) rfl h
  | jeq r => exact ExecSpec.jump rfl rfl (by simp [transfers, Instr.mnemonic]) rfl h
  | jne r => exact ExecSpec.jump rfl rfl (by simp [transfers, Instr.mnemonic]) rfl h
  | jgt r => exact ExecSpec.jump rfl rfl (by simp [transfers, Instr.mnemonic]) rfl h
  | jlt r => exact ExecSpec.jump rfl rfl (by simp [transfers, Instr.mnemonic]) rfl h
  | call r =>
    exact ExecSpec.reg _ rfl h fun _ =>
      ⟨Frame.push_setPc s _ _, .inr ⟨by simp [transfers, Instr.mnemonic], _, rfl⟩,
        (Keeps.store8 s _ _).then_eq rfl⟩
  | ret =>
    exact ExecSpec.none rfl h
      ⟨Frame.popPc s, .inr ⟨by simp [transfers, Instr.mnemonic], _, rfl⟩, Keeps.of_eq rfl⟩
  | push r =>
    exact ExecSpec.reg _ rfl h fun _ => ⟨Frame.push_setPc s _ _, .inl rfl, (Keeps.store8 s _ _).then_eq rfl⟩
  | pop r =>
    refine ExecSpec.reg (fun a => (s.popReg a).advance 1) rfl h fun hr => ⟨?_, .inl rfl, Keeps.of_eq rfl⟩
    simpa only [Instr.writes, regList_of hr] using Frame.popReg_advance s _ 1
  | ld a b =>
    refine ExecSpec.regReg (fun x y => (s.setReg y (s.load8 (s.reg x))).advance 2) rfl h fun _ hb =>
      ⟨?_, .inl rfl, Keeps.of_eq rfl⟩
    simpa only [Instr.writes, regList_of hb] using Frame.setReg_advance s _ _ 2
  | st a b =>
    refine ExecSpec.regReg (fun x y => (s.store8 (s.reg x) (s.reg y)).advance 2) rfl h fun ha _ =>
      ⟨?_, .inl rfl, (Keeps.store8 s _ _).then_eq rfl⟩
    simpa only [Instr.writes, regList_of ha, List.map_cons, List.map_nil] using Frame.store8_advance s _ _ 2
  | prn r =>
    exact ExecSpec.reg _ rfl h fun _ => ⟨Frame.emit_advance s _ 1, .inl rfl, (Keeps.emit s _).then_eq rfl⟩
  | pra r =>
    exact ExecSpec.reg _ rfl h fun _ => ⟨Frame.emit_advance s _ 1, .inl rfl, (Keeps.emit s _).then_eq rfl⟩
  | hlt => exact ExecSpec.none rfl h ⟨Frame.halt_advance s 0, .inl rfl, (Keeps.halt s).then_eq rfl⟩
  | nop => exact ExecSpec.none rfl h ⟨Frame.advance s 0, .inl rfl, Keeps.of_eq rfl⟩
  | int r =>
    exact ExecSpec.reg _ rfl h fun _ => ⟨Frame.orIS_advance s _ 1, .inl rfl, (Keeps.orIS s _).then_eq rfl⟩
  | iret =>
    exact ExecSpec.none rfl h
      ⟨Frame.returnFromInterrupt s, .inr ⟨by simp [transfers, Instr.mnemonic], _, State.pc_returnFromInterrupt s⟩,
        Keeps.returnFromInterrupt s⟩

end Sys2Proof.Machine
end

