-- ==== Sys2Proof/Laws/Cycle.lean ====
section
/-!
SUPPORT. Everything a step request can do (`cycle_cases`, rules R110 to R112, R118), what a fetch that answers an
instruction has read, and the state after launch, field by field.
-/
namespace Sys2Proof.Machine

/-! ### Errors -/

theorem CoreError.code_ne_zero (e : CoreError) : e.code ≠ 0 := by cases e <;> simp [CoreError.code]

theorem CoreError.code_bounds (e : CoreError) : 1 ≤ e.code.toNat ∧ e.code.toNat ≤ 4 := by
  cases e <;> simp [CoreError.code]

@[simp] theorem State.failed_run (s : State) (c : BitVec 3) : (s.failed c).run = .halted := rfl

@[simp] theorem State.failed_err (s : State) (c : BitVec 3) : (s.failed c).err = ⟨c, s.pc⟩ := rfl

/-! ### The step -/

/-- Everything a step request can answer. -/
theorem cycle_cases {m : OpcodeMap} {s t : State} (h : cycle m s = .next t) :
    (s.run = .halted ∧ t = s) ∨
    (s.run = .running ∧ ∃ e, fetchInstr m s = .error e ∧ t = s.failed e.code) ∨
    (s.run = .running ∧ ∃ i, fetchInstr m s = .ok i ∧ exec i s = .next t) := by
  unfold cycle at h
  split at h
  · next hr => cases h; exact .inl ⟨hr, rfl⟩
  · next hr =>
    split at h
    · next e he => cases h; exact .inr (.inl ⟨hr, e, he, rfl⟩)
    · next i hi => exact .inr (.inr ⟨hr, i, hi, h⟩)

theorem cycle_halted (m : OpcodeMap) {s : State} (h : s.run = .halted) : cycle m s = .next s := by simp [cycle, h]

theorem cycle_error {m : OpcodeMap} {s : State} {e : CoreError} (h : s.run = .running)
    (he : fetchInstr m s = .error e) : cycle m s = .next (s.failed e.code) := by
  simp [cycle, h, he, takeError_eq_failed]

theorem cycle_ok {m : OpcodeMap} {s : State} {i : Instr} (h : s.run = .running) (hi : fetchInstr m s = .ok i) :
    cycle m s = exec i s := by
  simp [cycle, h, hi]

/-- `exec` answers a next state, whatever the instruction and the state. -/
theorem exec_next (i : Instr) (s : State) : ∃ t, exec i s = .next t := by
  cases i <;> first | exact ⟨_, rfl⟩ | exact settle_next s _

/-! ### The fetch -/

theorem memRead_ok {a : Nat} {s : State} (h : a ≤ 255) : memRead a s = .ok (s.mem.read a) := by
  simp [memRead, Nat.not_lt.mpr h]

theorem memRead_error {a : Nat} {s : State} (h : a > 255) : memRead a s = .error (.addressOutOfRange a) := by
  simp [memRead, h]

theorem memRead_bound {a : Nat} {s : State} {v : Byte} (h : memRead a s = .ok v) : a ≤ 255 := by
  by_cases ha : a > 255
  · rw [memRead_error ha] at h; cases h
  · omega

/-- The bytes of a fetched instruction lie in memory (rule R25). -/
theorem fetchInstr_bound {m : OpcodeMap} {s : State} {i : Instr} (h : fetchInstr m s = .ok i) :
    s.pc.toNat + i.mnemonic.operandCount ≤ 255 := by
  obtain ⟨op, d, opA, opB, h0, -, ho, rfl⟩ := decodeFrom_ok h
  have h0 := memRead_bound h0
  rw [Mnemonic.mnemonic_instr]
  have hle := d.operandCount_le
  generalize d.operandCount = n at ho hle ⊢
  match n with
  | 0 => exact h0
  | 1 =>
    cases h1 : memRead (s.pc.toNat + 1) s with
    | error e => simp [fetchOperands, h1] at ho
    | ok a => exact memRead_bound h1
  | 2 =>
    cases h1 : memRead (s.pc.toNat + 1) s with
    | error e => simp [fetchOperands, h1] at ho
    | ok a =>
      cases h2 : memRead (s.pc.toNat + 2) s with
      | error e => simp [fetchOperands, h1, h2] at ho
      | ok b => exact memRead_bound h2
  | n + 3 => omega

/-! ### Launch -/

theorem State.launch_x (f : MemInit) : (State.launch f).x = State.reset.x := rfl

theorem State.launch_reg (f : MemInit) (r : RegId) : (State.launch f).reg r = State.reset.reg r := by
  simp only [State.reg, State.launch_x]

theorem State.launch_pc (f : MemInit) : (State.launch f).pc = 0 := rfl

theorem State.launch_fl (f : MemInit) : (State.launch f).fl = 0 := rfl

theorem State.launch_err (f : MemInit) : (State.launch f).err = ⟨0, 0⟩ := rfl

theorem State.launch_mem (f : MemInit) : (State.launch f).mem = Memory.fill f Config.memSize := by
  simp only [State.launch]

end Sys2Proof.Machine
end

