-- ==== Sys2Proof/Laws/Meanings.lean ====
section
/-!
SUPPORT. The next state of each instruction whose register operands are in range, as one equation that claims cite in
place of the meaning's definition, and the closed form of IRET's nine pops.
-/
namespace Sys2Proof.Machine

variable {a b : RegOperand} (s : State)

theorem exec_ldi (ha : a.toNat < 8) (imm : Byte) :
    exec (.ldi a imm) s = .next ((s.setReg ⟨a.toNat, ha⟩ imm).advance 2) :=
  withReg_ok ha s _

theorem exec_cmp (ha : a.toNat < 8) (hb : b.toNat < 8) :
    exec (.cmp a b) s =
      .next ((s.setFL ((cmpFlags (s.reg ⟨a.toNat, ha⟩) (s.reg ⟨b.toNat, hb⟩)).setWidth 8)).advance 2) :=
  withRegReg_ok ha hb s _

theorem exec_call (ha : a.toNat < 8) :
    exec (.call a) s =
      .next ((s.decSp.store8 s.decSp.sp (returnAddress s.pc)).setPc (pcOfByte (s.decSp.reg ⟨a.toNat, ha⟩))) :=
  withReg_ok ha s _

theorem exec_push (ha : a.toNat < 8) :
    exec (.push a) s = .next ((s.decSp.store8 s.decSp.sp (s.decSp.reg ⟨a.toNat, ha⟩)).advance 1) :=
  withReg_ok ha s _

theorem exec_pop (ha : a.toNat < 8) : exec (.pop a) s = .next ((s.popReg ⟨a.toNat, ha⟩).advance 1) :=
  withReg_ok ha s _

theorem exec_ld (ha : a.toNat < 8) (hb : b.toNat < 8) :
    exec (.ld a b) s = .next ((s.setReg ⟨b.toNat, hb⟩ (s.load8 (s.reg ⟨a.toNat, ha⟩))).advance 2) :=
  withRegReg_ok ha hb s _

theorem exec_st (ha : a.toNat < 8) (hb : b.toNat < 8) :
    exec (.st a b) s = .next ((s.store8 (s.reg ⟨a.toNat, ha⟩) (s.reg ⟨b.toNat, hb⟩)).advance 2) :=
  withRegReg_ok ha hb s _

theorem exec_prn (ha : a.toNat < 8) :
    exec (.prn a) s = .next ((s.emit (.dec (s.reg ⟨a.toNat, ha⟩))).advance 1) :=
  withReg_ok ha s _

theorem exec_pra (ha : a.toNat < 8) :
    exec (.pra a) s = .next ((s.emit (.chr (s.reg ⟨a.toNat, ha⟩))).advance 1) :=
  withReg_ok ha s _

theorem exec_int (ha : a.toNat < 8) :
    exec (.int a) s = .next ((s.orIS (interruptBit (s.reg ⟨a.toNat, ha⟩))).advance 1) :=
  withReg_ok ha s _

theorem exec_ret : exec .ret s = .next s.popPc := rfl

theorem exec_iret : exec .iret s = .next s.returnFromInterrupt := rfl

/-! ### Jumps -/

theorem jumpIf_taken {c : Cond} (ha : a.toNat < 8) (h : c.holds s.flags = true) :
    jumpIf c a s = .next (s.setPc (pcOfByte (s.reg ⟨a.toNat, ha⟩))) := by
  rw [jumpIf, withReg_ok ha, settle_ok, if_pos h]

theorem jumpIf_not_taken {c : Cond} (ha : a.toNat < 8) (h : ¬ c.holds s.flags = true) :
    jumpIf c a s = .next (s.advance 1) := by
  rw [jumpIf, withReg_ok ha, settle_ok, if_neg h]

@[simp] theorem pcOfByte_toNat (t : Byte) : (pcOfByte t).toNat = t.toNat := by
  have := t.isLt
  simp only [pcOfByte, BitVec.toNat_setWidth]
  omega

/-- The hardwired bits of FL are above the three flags. -/
theorem State.flags_getLsbD {k : Nat} (h : k < 3) : s.flags.getLsbD k = s.fl.getLsbD k := by
  have : k = 0 ∨ k = 1 ∨ k = 2 := by omega
  rcases this with rfl | rfl | rfl <;> simp [State.flags]

/-! ### IRET -/

/-- After the first n pops of the frame: x[0] to x[n-1] hold the frame's bytes, SP has moved by n (rule R235). -/
def State.popRegs (s : State) : Nat → State
  | 0 => s
  | n + 1 => (s.popRegs n).popReg (Fin.ofNat 8 n)

theorem State.sp_popRegs {n : Nat} (hn : n ≤ 7) : (s.popRegs n).sp = s.sp + BitVec.ofNat 8 n := by
  induction n with
  | zero => simp [State.popRegs]
  | succ n ih =>
    have h : Fin.ofNat 8 n ≠ spId := by
      intro e
      have := congrArg Fin.val e
      simp [spId] at this
      omega
    rw [State.popRegs, State.sp_popReg _ h, ih (by omega), BitVec.add_assoc, BitVec.ofNat_add]
    rfl

theorem State.load8_popRegs (n : Nat) (p : Byte) : (s.popRegs n).load8 p = s.load8 p := by
  induction n with
  | zero => rfl
  | succ n ih => rw [State.popRegs, State.load8_popReg, ih]

theorem State.reg_popRegs {n : Nat} (hn : n ≤ 7) (r : RegId) (hr : r.val < n) :
    (s.popRegs n).reg r = s.load8 (s.sp + BitVec.ofNat 8 r.val) := by
  induction n with
  | zero => omega
  | succ n ih =>
    have hsp : r ≠ spId := by
      intro e
      have := congrArg Fin.val e
      simp [spId] at this
      omega
    rw [State.popRegs, State.reg_popReg, if_neg hsp]
    by_cases h : r.val = n
    · have hr : r = Fin.ofNat 8 n := by
        apply Fin.ext
        simp only [Fin.ofNat, h]
        omega
      rw [if_pos hr, State.load8_popRegs, State.sp_popRegs s (by omega), h]
    · have hr : r ≠ Fin.ofNat 8 n := by
        intro e
        have := congrArg Fin.val e
        simp only [Fin.ofNat] at this
        omega
      rw [if_neg hr]
      exact ih (by omega) (by omega)

theorem State.returnFromInterrupt_eq : s.returnFromInterrupt = ((s.popRegs 7).popFL.popPc).enableIE := rfl

/-- x[0] to x[6] after IRET. -/
theorem State.reg_returnFromInterrupt (r : RegId) (hr : r.val < 7) :
    s.returnFromInterrupt.reg r = s.load8 (s.sp + BitVec.ofNat 8 r.val) := by
  have hsp : r ≠ spId := by
    intro e
    have := congrArg Fin.val e
    simp [spId] at this
    omega
  rw [State.returnFromInterrupt_eq, State.reg_enableIE, State.reg_popPc, if_neg hsp, State.reg_popFL, if_neg hsp,
    State.reg_popRegs s (Nat.le_refl 7) r hr]

/-- FL after IRET. -/
theorem State.fl_returnFromInterrupt : s.returnFromInterrupt.fl = s.load8 (s.sp + 7) &&& 0x07 := by
  rw [State.returnFromInterrupt_eq, State.enableIE_fl, State.popPc_fl, State.popFL_fl, State.load8_popRegs,
    State.sp_popRegs s (Nat.le_refl 7)]
  rfl

/-- SP after IRET. -/
theorem State.sp_returnFromInterrupt : s.returnFromInterrupt.sp = s.sp + 9 := by
  rw [State.returnFromInterrupt_eq, State.sp, State.reg_enableIE, ← State.sp, State.sp_popPc, State.sp_popFL,
    State.sp_popRegs s (Nat.le_refl 7), BitVec.add_assoc, BitVec.add_assoc]
  rfl

end Sys2Proof.Machine
end

