-- ==== Sys2Proof/Laws/PerInstr.lean ====
section
/-!
SUPPORT. Statements about every instruction as syntax, one lemma per constructor. The family `Layout`: fetching the
operands of an instruction's own encoding, whatever bytes follow, gives operand bytes that its mnemonic builds the same
instruction from (rules R81, R87, R112).
-/
namespace Sys2Proof.Laws.Layout

/-- No operand byte is dropped, and none is taken from what follows the instruction. -/
def Statement (i : Instr) : Prop :=
  ∀ (m : OpcodeMap) (rest : List Byte), ∃ opA opB,
    fetchOperands i.mnemonic.operandCount (listByte (encodeWith m i ++ rest)) = .ok (opA, opB) ∧
    i.mnemonic.instr opA opB = i

theorem ldi (dst imm : Byte) : Statement (.ldi dst imm) := fun _ _ => ⟨dst, imm, rfl, rfl⟩

theorem add (a b : Byte) : Statement (.add a b) := fun _ _ => ⟨a, b, rfl, rfl⟩

theorem sub (a b : Byte) : Statement (.sub a b) := fun _ _ => ⟨a, b, rfl, rfl⟩

theorem mul (a b : Byte) : Statement (.mul a b) := fun _ _ => ⟨a, b, rfl, rfl⟩

theorem div (a b : Byte) : Statement (.div a b) := fun _ _ => ⟨a, b, rfl, rfl⟩

theorem mod (a b : Byte) : Statement (.mod a b) := fun _ _ => ⟨a, b, rfl, rfl⟩

theorem and (a b : Byte) : Statement (.and a b) := fun _ _ => ⟨a, b, rfl, rfl⟩

theorem or (a b : Byte) : Statement (.or a b) := fun _ _ => ⟨a, b, rfl, rfl⟩

theorem xor (a b : Byte) : Statement (.xor a b) := fun _ _ => ⟨a, b, rfl, rfl⟩

theorem inc (r : Byte) : Statement (.inc r) := fun _ _ => ⟨r, 0, rfl, rfl⟩

theorem dec (r : Byte) : Statement (.dec r) := fun _ _ => ⟨r, 0, rfl, rfl⟩

theorem not (r : Byte) : Statement (.not r) := fun _ _ => ⟨r, 0, rfl, rfl⟩

theorem cmp (a b : Byte) : Statement (.cmp a b) := fun _ _ => ⟨a, b, rfl, rfl⟩

theorem jmp (r : Byte) : Statement (.jmp r) := fun _ _ => ⟨r, 0, rfl, rfl⟩

theorem jeq (r : Byte) : Statement (.jeq r) := fun _ _ => ⟨r, 0, rfl, rfl⟩

theorem jne (r : Byte) : Statement (.jne r) := fun _ _ => ⟨r, 0, rfl, rfl⟩

theorem jgt (r : Byte) : Statement (.jgt r) := fun _ _ => ⟨r, 0, rfl, rfl⟩

theorem jlt (r : Byte) : Statement (.jlt r) := fun _ _ => ⟨r, 0, rfl, rfl⟩

theorem call (r : Byte) : Statement (.call r) := fun _ _ => ⟨r, 0, rfl, rfl⟩

theorem ret : Statement .ret := fun _ _ => ⟨0, 0, rfl, rfl⟩

theorem push (r : Byte) : Statement (.push r) := fun _ _ => ⟨r, 0, rfl, rfl⟩

theorem pop (r : Byte) : Statement (.pop r) := fun _ _ => ⟨r, 0, rfl, rfl⟩

theorem ld (addr dst : Byte) : Statement (.ld addr dst) := fun _ _ => ⟨addr, dst, rfl, rfl⟩

theorem st (addr src : Byte) : Statement (.st addr src) := fun _ _ => ⟨addr, src, rfl, rfl⟩

theorem prn (r : Byte) : Statement (.prn r) := fun _ _ => ⟨r, 0, rfl, rfl⟩

theorem pra (r : Byte) : Statement (.pra r) := fun _ _ => ⟨r, 0, rfl, rfl⟩

theorem hlt : Statement .hlt := fun _ _ => ⟨0, 0, rfl, rfl⟩

theorem nop : Statement .nop := fun _ _ => ⟨0, 0, rfl, rfl⟩

theorem int (r : Byte) : Statement (.int r) := fun _ _ => ⟨r, 0, rfl, rfl⟩

theorem iret : Statement .iret := fun _ _ => ⟨0, 0, rfl, rfl⟩

end Sys2Proof.Laws.Layout
end

