-- ==== Sys2Proof/Tests/Slice0.lean ====
section
/-!
SUPPORT. The model's own tests: ill-formed terms refused, every constructor's decoding from a word written out from
rule R86's table, one-step vectors of 95_test_vectors.md, and a witness for the hypotheses of each statement.
-/
namespace Sys2Proof.Tests

open Sys2Proof.Machine

/-! ### Well-formedness (R116): one ill-formed term for each operand check -/

theorem test_wf_boundary : (Instr.add 7 7).wellFormed = true := by decide
theorem test_wf_immediate_unchecked : (Instr.ldi 7 200).wellFormed = true := by decide
theorem test_wf_refuses_ldi_opA : (Instr.ldi 8 0).wellFormed = false := by decide
theorem test_wf_refuses_opA_of_two : (Instr.div 9 1).wellFormed = false := by decide
theorem test_wf_refuses_opB_of_two : (Instr.div 0 9).wellFormed = false := by decide
theorem test_wf_refuses_opA_of_one : (Instr.inc 200).wellFormed = false := by decide
theorem test_wf_refuses_not_taken_jump : (Instr.jeq 8).wellFormed = false := by decide

/-! ### Decoding: opB, opA, opcode bits written out from rule R86 -/

theorem test_decode_ldi : decodeTableWord 24 0b00001000_00000011_10011001 = some (.ldi 3 8) := by decide
theorem test_decode_add : decodeTableWord 24 0b00000101_00000010_10101000 = some (.add 2 5) := by decide
theorem test_decode_sub : decodeTableWord 24 0b00000101_00000010_10101001 = some (.sub 2 5) := by decide
theorem test_decode_mul : decodeTableWord 24 0b00000101_00000010_10101010 = some (.mul 2 5) := by decide
theorem test_decode_div : decodeTableWord 24 0b00000101_00000010_10101011 = some (.div 2 5) := by decide
theorem test_decode_mod : decodeTableWord 24 0b00000101_00000010_10101100 = some (.mod 2 5) := by decide
theorem test_decode_and : decodeTableWord 24 0b00000101_00000010_10110011 = some (.and 2 5) := by decide
theorem test_decode_or : decodeTableWord 24 0b00000101_00000010_10110001 = some (.or 2 5) := by decide
theorem test_decode_xor : decodeTableWord 24 0b00000101_00000010_10110010 = some (.xor 2 5) := by decide
theorem test_decode_inc : decodeTableWord 16 0b00000110_01111000 = some (.inc 6) := by decide
theorem test_decode_dec : decodeTableWord 16 0b00000110_01111001 = some (.dec 6) := by decide
theorem test_decode_not : decodeTableWord 16 0b00000110_01110000 = some (.not 6) := by decide
theorem test_decode_cmp : decodeTableWord 24 0b00000101_00000010_10100000 = some (.cmp 2 5) := by decide
theorem test_decode_jmp : decodeTableWord 16 0b00000001_01010000 = some (.jmp 1) := by decide
theorem test_decode_jeq : decodeTableWord 16 0b00000001_01010001 = some (.jeq 1) := by decide
theorem test_decode_jne : decodeTableWord 16 0b00000001_01010010 = some (.jne 1) := by decide
theorem test_decode_jgt : decodeTableWord 16 0b00000001_01010100 = some (.jgt 1) := by decide
theorem test_decode_jlt : decodeTableWord 16 0b00000001_01010011 = some (.jlt 1) := by decide
theorem test_decode_call : decodeTableWord 16 0b00000001_01001000 = some (.call 1) := by decide
theorem test_decode_ret : decodeTableWord 8 0b00001001 = some .ret := by decide
theorem test_decode_push : decodeTableWord 16 0b00000100_01001101 = some (.push 4) := by decide
theorem test_decode_pop : decodeTableWord 16 0b00000100_01001100 = some (.pop 4) := by decide
theorem test_decode_ld : decodeTableWord 24 0b00000011_00000010_10011000 = some (.ld 2 3) := by decide
theorem test_decode_st : decodeTableWord 24 0b00000011_00000010_10011010 = some (.st 2 3) := by decide
theorem test_decode_prn : decodeTableWord 16 0b00000100_01000011 = some (.prn 4) := by decide
theorem test_decode_pra : decodeTableWord 16 0b00000100_01000010 = some (.pra 4) := by decide
theorem test_decode_hlt : decodeTableWord 8 0b00000001 = some .hlt := by decide
theorem test_decode_nop : decodeTableWord 8 0b00000000 = some .nop := by decide
theorem test_decode_int : decodeTableWord 16 0b00000111_01001010 = some (.int 7) := by decide
theorem test_decode_iret : decodeTableWord 8 0b00001011 = some .iret := by decide
theorem test_decode_index_not_masked : decodeTableWord 24 0b11001000_00001001_10101011 = some (.div 9 200) := by decide
theorem test_decode_refuses_02 : decode [0x02, 0, 0] = .error (.unknownOpcode 0x02) := by decide
theorem test_decode_refuses_c0 : decode [0xC0, 0, 0] = .error (.unknownOpcode 0xC0) := by decide
theorem test_decode_missing_opB : decode [0x99, 0] = .error (.missingByte 2) := by decide

/-! ### One step (95_test_vectors.md sections 1 and 2) -/

/-- A running state with these registers 0, 1, 2, this stack pointer, pc and memory, else as after reset. -/
def st (pc : PcWord) (r0 r1 r2 sp : Byte) (mem : Memory) : State :=
  { State.reset with x := #v[r0, r1, r2, 0, 0, 0, 0, sp], pc := pc, mem := mem }

/-- A field of the state a step answers. -/
def after {α : Type} (s : State) (f : State → α) : Option α :=
  match step s with
  | .next t => some (f t)
  | _ => none

theorem test_ldi : after (st 0 0 0 0 0xF4 [(0, 0x99), (2, 8)]) (fun t => (t.reg 0, t.pc)) = some (8, 3) := by decide
theorem test_ldi_opB_unchecked : after (st 0 0 0 0 0xF4 [(0, 0x99), (2, 200)]) (fun t => (t.reg 0, t.run)) =
    some (200, .running) := by decide
theorem test_ldi_bad_index : after (st 0 0 0 0 0xF4 [(0, 0x99), (1, 8), (2, 5)]) (fun t => (t.run, t.err, t.pc)) =
    some (.halted, ⟨2, 0⟩, 0) := by decide
theorem test_add_wraps : after (st 0 200 100 0 0xF4 [(0, 0xA8), (2, 1)]) (fun t => (t.reg 0, t.reg 1, t.pc)) =
    some (44, 100, 3) := by decide
theorem test_sub_underflows : after (st 0 3 5 0 0xF4 [(0, 0xA9), (2, 1)]) (fun t => t.reg 0) = some 254 := by decide
theorem test_mul_low_byte : after (st 0 255 255 0 0xF4 [(0, 0xAA), (2, 1)]) (fun t => t.reg 0) = some 1 := by decide
theorem test_div_floors : after (st 0 7 2 0 0xF4 [(0, 0xAB), (2, 1)]) (fun t => t.reg 0) = some 3 := by decide
theorem test_div_by_zero : after (st 0 7 0 0 0xF4 [(0, 0xAB), (2, 1)]) (fun t => (t.run, t.err, t.reg 0, t.pc)) =
    some (.halted, ⟨3, 0⟩, 7, 0) := by decide
theorem test_mod : after (st 0 5 7 0 0xF4 [(0, 0xAC), (2, 1)]) (fun t => t.reg 0) = some 5 := by decide
theorem test_mod_bad_opB_before_zero : after (st 0 9 0 0 0xF4 [(0, 0xAC), (2, 9)]) (fun t => t.err) = some ⟨2, 0⟩ := by
  decide
theorem test_and : after (st 0 0xF0 0x3C 0 0xF4 [(0, 0xB3), (2, 1)]) (fun t => t.reg 0) = some 0x30 := by decide
theorem test_or : after (st 0 0xF0 0x3C 0 0xF4 [(0, 0xB1), (2, 1)]) (fun t => t.reg 0) = some 0xFC := by decide
theorem test_xor : after (st 0 0xF0 0x3C 0 0xF4 [(0, 0xB2), (2, 1)]) (fun t => t.reg 0) = some 0xCC := by decide
theorem test_inc_wraps : after (st 0 0 0 255 0xF4 [(0, 0x78), (1, 2)]) (fun t => (t.reg 2, t.pc)) = some (0, 2) := by
  decide
theorem test_dec_wraps : after (st 0 0 0 0 0xF4 [(0, 0x79), (1, 2)]) (fun t => t.reg 2) = some 255 := by decide
theorem test_not : after (st 0 0x0F 0 0 0xF4 [(0, 0x70)]) (fun t => t.reg 0) = some 0xF0 := by decide
theorem test_cmp_unsigned_less : after (st 0 0 255 0 0xF4 [(0, 0xA0), (2, 1)]) (fun t => t.fl) = some 0b100 := by decide
theorem test_cmp_greater : after (st 0 9 5 0 0xF4 [(0, 0xA0), (2, 1)]) (fun t => t.fl) = some 0b010 := by decide
theorem test_jmp : after (st 0x10 0 0x40 0 0xF4 [(0x10, 0x50), (0x11, 1)]) (fun t => t.pc) = some 0x40 := by decide
theorem test_jeq_not_taken_at_reset : after (st 0x10 0 0x40 0 0xF4 [(0x10, 0x51), (0x11, 1)]) (fun t => t.pc) =
    some 0x12 := by decide
theorem test_jne_taken_at_reset : after (st 0x10 0 0x40 0 0xF4 [(0x10, 0x52), (0x11, 1)]) (fun t => t.pc) =
    some 0x40 := by decide
theorem test_jgt_taken : after { st 0x10 0 0x40 0 0xF4 [(0x10, 0x54), (0x11, 1)] with fl := 0b010 } (fun t => t.pc) =
    some 0x40 := by decide
theorem test_jlt_taken : after { st 0x10 0 0x40 0 0xF4 [(0x10, 0x53), (0x11, 1)] with fl := 0b100 } (fun t => t.pc) =
    some 0x40 := by decide
theorem test_jlt_bad_index_not_taken : after (st 0x10 0 0 0 0xF4 [(0x10, 0x53), (0x11, 8)]) (fun t => (t.run, t.err)) =
    some (.halted, ⟨2, 0x10⟩) := by decide
theorem test_call : after (st 4 0 0x10 0 0xF4 [(4, 0x48), (5, 1)]) (fun t => (t.sp, t.mem.read 0xF3, t.pc)) =
    some (0xF3, 6, 0x10) := by decide
theorem test_call_r7_reads_after_decrement : after (st 4 0 0 0 0xF4 [(4, 0x48), (5, 7)]) (fun t => (t.sp, t.pc)) =
    some (0xF3, 0xF3) := by decide
theorem test_ret_wraps_sp : after (st 4 0 0 0 0xFF [(4, 0x09), (0xFF, 0x33)]) (fun t => (t.pc, t.sp)) =
    some (0x33, 0) := by decide
theorem test_push : after (st 0 42 0 0 0xF4 [(0, 0x4D)]) (fun t => (t.sp, t.mem.read 0xF3, t.pc)) =
    some (0xF3, 42, 2) := by decide
theorem test_push_r7_stores_new_sp : after (st 0 0 0 0 0 [(0, 0x4D), (1, 7)]) (fun t => (t.sp, t.mem.read 0xFF)) =
    some (0xFF, 0xFF) := by decide
theorem test_pop : after (st 0 0 0 0 0xF3 [(0, 0x4C), (1, 1), (0xF3, 42)]) (fun t => (t.reg 1, t.sp, t.mem.read 0xF3)) =
    some (42, 0xF4, 42) := by decide
theorem test_pop_r7 : after (st 0 0 0 0 0xF3 [(0, 0x4C), (1, 7), (0xF3, 0x10)]) (fun t => t.sp) = some 0x11 := by decide
theorem test_ld_roles : after (st 0 0x80 0 0 0xF4 [(0, 0x98), (2, 1), (0x80, 0x5A)]) (fun t => (t.reg 1, t.reg 0, t.pc)) =
    some (0x5A, 0x80, 3) := by decide
theorem test_st_top_of_memory : after (st 0 0xFF 7 0 0xF4 [(0, 0x9A), (2, 1)]) (fun t => (t.mem.read 0xFF, t.run)) =
    some (7, .running) := by decide
theorem test_st_zero_keeps_canonical : after (st 0 0x80 0 0 0xF4 [(0, 0x9A), (2, 1), (0x80, 0x5A)]) (fun t => t.mem) =
    some [(0, 0x9A), (2, 1)] := by decide
theorem test_prn : after (st 0 8 0 0 0xF4 [(0, 0x43)]) (fun t => (t.out, renderOut t.out)) =
    some ([.dec 8], ['8', '\n']) := by decide
theorem test_prn_bad_index_emits_nothing : after (st 0 8 0 0 0xF4 [(0, 0x43), (1, 8)]) (fun t => t.out) = some [] := by
  decide
theorem test_pra : after (st 0 65 0 0 0xF4 [(0, 0x42)]) (fun t => (t.out, renderOut t.out)) =
    some ([.chr 65], ['A']) := by decide
theorem test_hlt : after (st 5 0 0 0 0xF4 [(5, 0x01)]) (fun t => (t.run, t.pc, t.err)) = some (.halted, 6, ⟨0, 0⟩) := by
  decide
theorem test_hlt_at_255 : after (st 255 0 0 0 0xF4 [(255, 0x01)]) (fun t => (t.run, t.pc)) = some (.halted, 256) := by
  decide
theorem test_nop : after (st 7 0 0 0 0xF4 []) (fun t => (t.pc, t.mem)) = some (8, []) := by decide
theorem test_int : after (st 0 3 0 0 0xF4 [(0, 0x4A)]) (fun t => (t.is, t.pc, t.sp)) = some (0x08, 2, 0xF4) := by decide
theorem test_int_8_sets_nothing : after (st 0 8 0 0 0xF4 [(0, 0x4A)]) (fun t => (t.is, t.run)) = some (0, .running) := by
  decide
/-- R235's frame that wraps past address 255. -/
theorem test_iret_wraps :
    after (st 0x20 9 9 9 0xFC [(0x03, 0x01), (0x04, 0x40), (0x20, 0x0B)]) (fun t => (t.x, t.fl, t.pc)) =
    some (#v[0, 0, 0, 0, 0, 0, 0, 0x05], 0b001, 0x40) := by decide
/-- R235's example: bits 7:3 of the flags byte are dropped. -/
theorem test_iret_masks_flags :
    after (st 0 0 0 0 0xEB [(0, 0x0B), (0xEB, 1), (0xEC, 2), (0xED, 3), (0xEE, 4), (0xEF, 5), (0xF0, 6), (0xF1, 7),
      (0xF2, 0xFF), (0xF3, 0x20)]) (fun t => (t.x, t.fl, t.pc)) =
    some (#v[1, 2, 3, 4, 5, 6, 7, 0xF4], 0b111, 0x20) := by decide

/-! ### Boundaries and priority (95_test_vectors.md section 2.11) -/

theorem test_pc_256 : after (st 256 0 0 0 0xF4 []) (fun t => (t.err, t.pc)) = some (⟨1, 256⟩, 256) := by decide
theorem test_opB_beyond_memory : after (st 254 0 0 0 0xF4 [(254, 0x99)]) (fun t => t.err) = some ⟨1, 254⟩ := by decide
theorem test_unknown_before_operand : after (st 255 0 0 0 0xF4 [(255, 0xFF)]) (fun t => t.err) = some ⟨4, 255⟩ := by
  decide
theorem test_halted_does_nothing : after { st 6 0 0 0 0xF4 [] with run := .halted } (fun t => t.pc) = some 6 := by decide
theorem test_load_refused_whole : State.reset.load 254 [1, 2, 3] = none := by decide
theorem test_load_truncates : (State.reset.load 254 [257, -1]).map (fun t => t.mem) = some [(254, 1), (255, 255)] := by
  decide
theorem test_withFetchWord : after (State.reset.withFetchWord 24 0x0800_99) (fun t => (t.reg 0, t.pc)) = some (8, 3) := by
  decide

/-! ### Witnesses: a concrete state and operands that meet the hypotheses of each statement, clause by clause -/

theorem witness_valid_opcode_map : ∃ m : OpcodeMap, m.Valid :=
  ⟨defaultOpcodeMap, OpcodeMap.valid_of_check (by decide +kernel)⟩

theorem witness_reset_inv : State.reset.Inv where
  memory := by decide
  flags := by decide
  pcBound := by decide
  errCode := by decide
  errPc := by decide
  errNone _ := by decide
  running _ := by decide
  enabled := by decide

/-- A state satisfying the invariant with pc at its bound and ERR written. -/
theorem witness_inv_boundary :
    State.Inv { State.reset with pc := 256, fl := 7, run := .halted, err := ⟨4, 256⟩, mem := [(255, 1)] } where
  memory := by decide
  flags := by decide
  pcBound := by decide
  errCode := by decide
  errPc := by decide
  errNone h := absurd h (by decide)
  running h := by cases h
  enabled := by decide

theorem witness_StepKeepsInvariant : ∃ s t, s.Inv ∧ cycle defaultOpcodeMap s = .next t ∧ step s = .next t :=
  ⟨State.reset, _, witness_reset_inv, rfl, rfl⟩

theorem witness_LaunchStateAfterReset : (∃ r : RegId, r ≠ 7) ∧ (255 : Nat) ≤ 255 := ⟨⟨6, by decide⟩, Nat.le_refl _⟩

theorem witness_ProgramLoad_within : State.reset.mem.wf = true ∧ 254 + [1, (2 : Int)].length ≤ 256 := by decide
theorem witness_ProgramLoad_beyond : [(7 : Int)] ≠ [] ∧ 256 + [(7 : Int)].length > 256 := by decide
theorem witness_ProgramLoad_poke : (255 : Nat) ≤ 255 ∧ (256 : Nat) > 255 := by decide

theorem witness_HostReads : (8 : Nat) > 7 ∧ (255 : Nat) ≤ 255 ∧ (256 : Nat) > 255 := by decide

theorem witness_DecimalDigits : (255 : Byte) ≠ 0 ∧ (0 : Byte) = 0 := by decide

theorem witness_DecodedBytesAreTheEncoding : decodeWith defaultOpcodeMap [0x99, 7, 255, 1] = .ok (.ldi 7 255) := by decide

theorem witness_CountThreeByte : opcodeCount 0xC0 = 3 ∧ opcodeCount 0xFF = 3 ∧
    (st 255 0 0 0 0xF4 [(255, 0xFF)]).pc.toNat ≤ 255 ∧
    opcodeCount ((st 255 0 0 0 0xF4 [(255, 0xFF)]).mem.read (st 255 0 0 0 0xF4 [(255, 0xFF)]).pc.toNat) = 3 := by decide

theorem witness_StepRunsTheDecodedInstruction :
    (st 255 0 0 0 0xF4 [(255, 0x01)]).run = .running ∧ decode (st 255 0 0 0 0xF4 [(255, 0x01)]).bytesAtPc = .ok .hlt ∧
    decode (st 253 0 0 0 0xF4 [(253, 0x99), (255, 8)]).bytesAtPc = .ok (.ldi 0 8) := by decide

theorem witness_Fetch_beyond : (st 256 0 0 0 0xF4 []).pc.toNat > 255 := by decide
theorem witness_Fetch_unknown : (st 255 0 0 0 0xF4 [(255, 2)]).pc.toNat ≤ 255 ∧
    decodeOpcode defaultOpcodeMap ((st 255 0 0 0 0xF4 [(255, 2)]).mem.read 255) = none := by decide
theorem witness_Fetch_no_operand : (st 255 0 0 0 0xF4 []).pc.toNat ≤ 255 ∧
    decodeOpcode defaultOpcodeMap ((st 255 0 0 0 0xF4 []).mem.read 255) = some .nop ∧
    Mnemonic.nop.operandCount = 0 := by decide
theorem witness_Fetch_one_operand : decodeOpcode defaultOpcodeMap 0x43 = some .prn ∧ Mnemonic.prn.operandCount = 1 ∧
    (255 : PcWord).toNat + 1 > 255 ∧ (254 : PcWord).toNat + 1 ≤ 255 := by decide
theorem witness_Fetch_two_operands : decodeOpcode defaultOpcodeMap 0x99 = some .ldi ∧ Mnemonic.ldi.operandCount = 2 ∧
    (254 : PcWord).toNat + 1 = 255 ∧ (253 : PcWord).toNat + 2 ≤ 255 := by decide

theorem witness_ErrorEntry_fetch : (st 256 0 0 0 0xF4 []).run = .running ∧
    fetchInstr defaultOpcodeMap (st 256 0 0 0 0xF4 []) = .error (.addressOutOfRange 256) := by decide
theorem witness_ErrorEntry_register :
    fetchInstr defaultOpcodeMap (st 0 0 0 0 0xF4 [(0, 0xAB), (2, 8)]) = .ok (.div 0 8) ∧
    (Instr.div 0 8).registerOperands.find? (fun x => !RegOperand.inRange x) = some 8 := by decide
theorem witness_ErrorEntry_divide :
    fetchInstr defaultOpcodeMap (st 0 9 0 0 0xF4 [(0, 0xAB), (2, 1)]) = .ok (.div 0 1) ∧
    (1 : Byte).toNat < 8 ∧ (st 0 9 0 0 0xF4 [(0, 0xAB), (2, 1)]).reg 1 = 0 := by decide
theorem witness_ErrorCodes : (Instr.st 7 8).wellFormed = false ∧ (7 : Byte).toNat < 8 ∧
    (st 0 9 0 0 0 []).reg 7 = 0 := by decide
theorem witness_ErrorCodes_operand_fetch : (st 254 0 0 0 0xF4 [(254, 0x99)]).run = .running ∧
    (st 254 0 0 0 0xF4 [(254, 0x99)]).pc.toNat ≤ 255 ∧
    decodeOpcode defaultOpcodeMap ((st 254 0 0 0 0xF4 [(254, 0x99)]).mem.read 254) = some .ldi ∧
    (st 254 0 0 0 0xF4 [(254, 0x99)]).pc.toNat + Mnemonic.ldi.operandCount > 255 := by decide

theorem witness_FailingStepCommitsNothingElse :
    ∃ s t, s.run = .running ∧ s.err.code = 0 ∧ cycle defaultOpcodeMap s = .next t ∧ t.err.code ≠ 0 :=
  ⟨st 255 0 0 0 0xF4 [(255, 0xFF)], _, rfl, rfl, rfl, by decide⟩

theorem witness_RegisterOperandAboveSeven : (Instr.st 7 8).wellFormed = false ∧ (Instr.jlt 255).wellFormed = false := by
  decide

theorem witness_HaltedIsTerminal : (State.reset.failed 1).run = .halted := rfl

theorem witness_NormalHalt_hlt : ∃ s t, s.run = .running ∧ s.err.code = 0 ∧ cycle defaultOpcodeMap s = .next t ∧
    t.run = .halted ∧ t.EndedNormally :=
  ⟨st 255 0 0 0 0xF4 [(255, 0x01)], _, rfl, rfl, rfl, rfl, rfl, rfl⟩
theorem witness_NormalHalt_error : ∃ s t, s.run = .running ∧ s.err.code = 0 ∧ cycle defaultOpcodeMap s = .next t ∧
    t.run = .halted ∧ t.EndedInError :=
  ⟨st 256 0 0 0 0xF4 [], _, rfl, rfl, rfl, rfl, rfl, by decide⟩

theorem witness_NonTransferAdvances : ∃ s t, s.err.code = 0 ∧ exec .hlt s = .next t ∧ t.err.code = 0 ∧
    Instr.hlt.mnemonic ∉ [Mnemonic.jmp, .jeq, .jne, .jgt, .jlt, .call, .ret, .iret] :=
  ⟨State.reset, _, rfl, rfl, rfl, by decide⟩

theorem witness_MemoryAccess : (256 : Nat) > 255 ∧ (255 : Nat) ≤ 255 ∧ (0 : Nat) ≠ 255 ∧ State.reset.mem.wf = true := by
  decide

theorem witness_StoreIsSeenByTheNextFetch :
    (st 252 255 2 0 0xF4 [(252, 0x9A), (254, 1)]).mem.wf = true ∧
    ((st 252 255 2 0 0xF4 [(252, 0x9A), (254, 1)]).reg 0).toNat =
      ((st 252 255 2 0 0xF4 [(252, 0x9A), (254, 1)]).pc + 3).toNat ∧
    decodeOpcode defaultOpcodeMap ((st 252 255 2 0 0xF4 [(252, 0x9A), (254, 1)]).reg 1) = none := by decide

/-- The operand range shared by the statements about one and two register operands, at both of its ends. -/
theorem witness_operands : (0 : Byte).toNat < 8 ∧ (7 : Byte).toNat < 8 ∧ (8 : Byte).toNat > 7 ∧ (255 : Byte).toNat > 7 ∧
    (6 : Byte).toNat < 7 := by decide

theorem witness_AluFunctionTable : (255 : Byte) ≠ 0 ∧ (0 : Byte) = 0 ∧ (5 : Byte).toNat = (5 : Byte).toNat ∧
    (255 : Byte).toNat > (0 : Byte).toNat ∧ (0 : Byte).toNat < (255 : Byte).toNat := by decide

theorem witness_DivMod : (st 0 7 2 0 0xF4 []).reg 1 ≠ 0 ∧ (st 0 7 0 0 0xF4 []).reg 1 = 0 := by decide

theorem witness_Cmp : ((st 0 5 5 0 0xF4 []).reg 0).toNat = ((st 0 5 5 0 0xF4 []).reg 1).toNat ∧
    ((st 0 6 5 0 0xF4 []).reg 0).toNat > ((st 0 6 5 0 0xF4 []).reg 1).toNat ∧
    ((st 0 4 5 0 0xF4 []).reg 0).toNat < ((st 0 4 5 0 0xF4 []).reg 1).toNat := by decide

theorem witness_OnlyCmpAndIretWriteFlags : ∃ s t, exec (.add 0 1) s = .next t ∧
    (Instr.add 0 1).mnemonic ∉ [Mnemonic.cmp, .iret] := ⟨State.reset, _, rfl, by decide⟩

theorem witness_Jumps : (0b001 : Byte).getLsbD 0 = true ∧ (0b010 : Byte).getLsbD 1 = true ∧
    (0b100 : Byte).getLsbD 2 = true ∧ (0b110 : Byte).getLsbD 0 = false ∧ ¬ (0b101 : Byte).getLsbD 1 = true := by decide

theorem witness_Call : (st 4 0 0x10 0 0 []).mem.wf = true ∧ (6 : Byte).toNat ≠ 7 ∧ (7 : Byte).toNat = 7 := by decide

theorem witness_CallThenRet : (st 253 0 0 0 0 []).mem.wf = true ∧ (st 253 0 0 0 0 []).pc.toNat ≤ 253 ∧
    (st 254 0 0 0 0 []).mem.wf = true ∧ (st 254 0 0 0 0 []).pc.toNat = 254 := by decide

theorem witness_PushPop : (st 0 42 0 0 0 [(255, 1)]).mem.wf = true ∧ (6 : Byte).toNat < 7 := by decide

theorem witness_OnlyStPushCallWriteMemory : ∃ s t, exec (.pop 1) s = .next t ∧
    (Instr.pop 1).mnemonic ∉ [Mnemonic.st, .push, .call] := ⟨State.reset, _, rfl, by decide⟩

theorem witness_OnlyPrnPraAppendOutput : ∃ s t, exec (.int 1) s = .next t ∧ step s = .next t ∧
    (Instr.int 1).mnemonic ∉ [Mnemonic.prn, .pra] :=
  ⟨st 0 0 3 0 0xF4 [(0, 0x4A), (1, 1)], _, rfl, rfl, by decide⟩

theorem witness_Int : (7 : Nat) < 8 ∧ ((st 0 0 8 0 0xF4 []).reg 1).toNat ≥ 8 := by decide

theorem witness_Iret : ((6 : RegId).val < 7) := by decide

theorem witness_InterruptStateIsNeverCleared : ∃ s t, cycle defaultOpcodeMap s = .next t ∧
    s.is.getLsbD 7 = true ∧ s.ie = true := ⟨{ State.reset with is := 0x80 }, _, rfl, by decide, rfl⟩

/-- A region of zeros that ends at the last cell. -/
theorem witness_NopOnlyAdvances : (st 253 0 0 0 0xF4 [(252, 1)]).run = .running ∧
    (st 253 0 0 0 0xF4 [(252, 1)]).pc.toNat + 3 ≤ 256 ∧
    ∀ k < 3, (st 253 0 0 0 0xF4 [(252, 1)]).mem.read ((st 253 0 0 0 0xF4 [(252, 1)]).pc.toNat + k) = 0 := by decide

end Sys2Proof.Tests
end

section
/-!
PROOFS. The access primitives `MemRead` and `MemWrite` (rules R52, R53): the value a truncation keeps, what a write
answers on either side of the bound, and what a read gives after it.
-/
namespace Sys2Proof.Machine

theorem trunc8_toNat (v : Int) : ((trunc8 v).toNat : Int) = v % 256 := by
  rw [trunc8, BitVec.toNat_ofInt]
  omega

theorem memWrite_error {a : Nat} (h : a > 255) (v : Int) (s : State) :
    memWrite a v s = .error (.addressOutOfRange a) := if_pos h

theorem memWrite_ok {a : Nat} (h : a ≤ 255) (v : Int) (s : State) :
    memWrite a v s = .ok { s with mem := s.mem.write a (trunc8 v) } := if_neg (Nat.not_lt.mpr h)

/-- A read depends on the state through the cell alone, within the bound and above it. -/
theorem memRead_congr {s t : State} {a : Nat} (h : t.mem.read a = s.mem.read a) : memRead a t = memRead a s := by
  rw [memRead, memRead, h]

theorem memRead_write_other (s : State) {a b : Nat} (v : Byte) (h : b ≠ a) :
    memRead b { s with mem := s.mem.write a v } = memRead b s :=
  memRead_congr (Memory.read_write_other s.mem v h)

theorem memRead_write_same {s : State} (hwf : s.mem.wf = true) {a : Nat} (h : a ≤ 255) (v : Byte) :
    memRead a { s with mem := s.mem.write a v } = .ok v := by
  rw [memRead_ok h, Memory.read_write_same s.mem hwf a v]

/-- Settles O25: the bound decides each access, and the memory's read-after-write laws give the cells of the state a
write answers. -/
theorem memoryAccessPrimitives : Obligations.MemoryAccessPrimitives := by
  refine ⟨fun _ _ h => memRead_error h, fun _ _ h => memRead_ok h, fun _ v s h => memWrite_error h v s,
    fun a v s h => ⟨_, memWrite_ok h v s, ?others, rfl, ?same⟩⟩
  case others => exact fun b hb => memRead_write_other s (trunc8 v) hb
  case same => exact fun hwf => ⟨trunc8 v, memRead_write_same hwf h (trunc8 v), trunc8_toNat v⟩

end Sys2Proof.Machine
end

section
/-!
PROOFS. Opcode bytes the decoder table has no entry for (rules R83, R84): bits 7:6 = 3 lie outside every admitted map,
and a byte absent from the table is refused from its own value, before any operand byte is asked for.
-/
namespace Sys2Proof

/-- The operand count of an admitted map's opcode is its mnemonic's, which is at most 2. -/
theorem OpcodeMap.Valid.opcodeCount_ne_three {m : OpcodeMap} (hm : m.Valid) (d : Mnemonic) :
    opcodeCount (m d) ≠ 3 := by
  obtain ⟨-, hcount, -⟩ := hm
  have hle := d.operandCount_le
  rw [hcount d]
  omega

theorem decodeOpcode_none_of_count_three {m : OpcodeMap} (hm : m.Valid) {op : Byte} (h : opcodeCount op = 3) :
    decodeOpcode m op = none :=
  decodeOpcode_none fun d hd => hm.opcodeCount_ne_three d (hd ▸ h)

/-- Of the source of bytes only the opcode's own is used: no premise speaks of `f` beyond offset 0. -/
theorem decodeFrom_unknown {ε : Type} {m : OpcodeMap} {u : Byte → ε} {f : Nat → Except ε Byte} {op : Byte}
    (h0 : f 0 = .ok op) (hd : decodeOpcode m op = none) : decodeFrom m u f = .error (u op) := by
  simp [decodeFrom, h0, hd]

theorem decodeWith_unknown {m : OpcodeMap} {op : Byte} (hd : decodeOpcode m op = none) (rest : List Byte) :
    decodeWith m (op :: rest) = .error (.unknownOpcode op) :=
  decodeFrom_unknown rfl hd

namespace Machine

theorem fetchInstr_unknown {m : OpcodeMap} {s : State} (hpc : s.pc.toNat ≤ 255)
    (hd : decodeOpcode m (s.mem.read s.pc.toNat) = none) :
    fetchInstr m s = .error (.unknownOpcode (s.mem.read s.pc.toNat)) :=
  decodeFrom_unknown (memRead_ok hpc) hd

/-- Settles O12: such a byte is absent from every admitted table, and the decoder and the fetch refuse an absent byte
without looking past it. -/
theorem countThreeByteIsUnknownOpcode : Obligations.CountThreeByteIsUnknownOpcode := by
  intro m hm
  have habsent : ∀ op : Byte, opcodeCount op = 3 → decodeOpcode m op = none :=
    fun _ => decodeOpcode_none_of_count_three hm
  exact ⟨hm.opcodeCount_ne_three, habsent, fun op rest h => decodeWith_unknown (habsent op h) rest,
    fun s hpc h => fetchInstr_unknown hpc (habsent _ h)⟩

end Machine
end Sys2Proof
end

section
/-!
PROOFS. The order of the fetch (rules R111, R112): the opcode, then opA, then opB, each read only when the table entry
has it, and the first byte that cannot be had ends it.
-/
namespace Sys2Proof

/-! ### The operand fetch, by the operand count -/

section
variable {ε : Type} {n : Nat} {f : Nat → Except ε Byte} {e : ε} {a b : Byte}

theorem fetchOperands_zero : fetchOperands 0 f = .ok (0, 0) := rfl

theorem fetchOperands_first_error (hn : n ≥ 1) (h1 : f 1 = .error e) : fetchOperands n f = .error e := by
  match n with
  | 1 | _ + 2 => simp [fetchOperands, h1]

theorem fetchOperands_one (h1 : f 1 = .ok a) : fetchOperands 1 f = .ok (a, 0) := by
  simp [fetchOperands, h1]

theorem fetchOperands_second_error (h1 : f 1 = .ok a) (h2 : f 2 = .error e) : fetchOperands 2 f = .error e := by
  simp [fetchOperands, h1, h2]

theorem fetchOperands_two (h1 : f 1 = .ok a) (h2 : f 2 = .ok b) : fetchOperands 2 f = .ok (a, b) := by
  simp [fetchOperands, h1, h2]

end

/-! ### The decoder's errors from its source of bytes -/

theorem decodeFrom_opcode_error {ε : Type} {m : OpcodeMap} {u : Byte → ε} {f : Nat → Except ε Byte} {e : ε}
    (h0 : f 0 = .error e) : decodeFrom m u f = .error e := by
  simp [decodeFrom, h0]

theorem decodeFrom_operand_error {ε : Type} {m : OpcodeMap} {u : Byte → ε} {f : Nat → Except ε Byte} {e : ε} {op : Byte}
    {d : Mnemonic} (h0 : f 0 = .ok op) (hd : decodeOpcode m op = some d)
    (ho : fetchOperands d.operandCount f = .error e) : decodeFrom m u f = .error e := by
  simp [decodeFrom, h0, hd, ho]

namespace Machine

/-! ### The fetch from memory -/

theorem fetchInstr_beyond {m : OpcodeMap} {s : State} (hpc : s.pc.toNat > 255) :
    fetchInstr m s = .error (.addressOutOfRange s.pc.toNat) :=
  decodeFrom_opcode_error (memRead_error hpc)

section
variable {m : OpcodeMap} {s : State} {d : Mnemonic} (hpc : s.pc.toNat ≤ 255)
  (hd : decodeOpcode m (s.mem.read s.pc.toNat) = some d)
include hpc hd

/-- Once the opcode is in the table, the operand fetch decides. -/
theorem fetchInstr_of_operands {n : Nat} {opA opB : Byte} (hn : d.operandCount = n)
    (ho : fetchOperands n (fun k => memRead (s.pc.toNat + k) s) = .ok (opA, opB)) :
    fetchInstr m s = .ok (d.instr opA opB) :=
  decodeFrom_of (memRead_ok hpc) hd (hn ▸ ho)

theorem fetchInstr_operand_error {n : Nat} {e : CoreError} (hn : d.operandCount = n)
    (ho : fetchOperands n (fun k => memRead (s.pc.toNat + k) s) = .error e) :
    fetchInstr m s = .error e :=
  decodeFrom_operand_error (memRead_ok hpc) hd (hn ▸ ho)

theorem fetchInstr_no_operand (hn : d.operandCount = 0) : fetchInstr m s = .ok (d.instr 0 0) :=
  fetchInstr_of_operands hpc hd hn fetchOperands_zero

theorem fetchInstr_first_operand_beyond (hn : d.operandCount ≥ 1) (h1 : s.pc.toNat + 1 > 255) :
    fetchInstr m s = .error (.addressOutOfRange (s.pc.toNat + 1)) :=
  fetchInstr_operand_error hpc hd rfl (fetchOperands_first_error hn (memRead_error h1))

theorem fetchInstr_one_operand (hn : d.operandCount = 1) (h1 : s.pc.toNat + 1 ≤ 255) :
    fetchInstr m s = .ok (d.instr (s.mem.read (s.pc.toNat + 1)) 0) :=
  fetchInstr_of_operands hpc hd hn (fetchOperands_one (memRead_ok h1))

theorem fetchInstr_second_operand_beyond (hn : d.operandCount = 2) (h1 : s.pc.toNat + 1 = 255) :
    fetchInstr m s = .error (.addressOutOfRange (s.pc.toNat + 2)) :=
  have h2 : s.pc.toNat + 2 > 255 := by omega
  fetchInstr_operand_error hpc hd hn (fetchOperands_second_error (memRead_ok h1.le) (memRead_error h2))

theorem fetchInstr_two_operands (hn : d.operandCount = 2) (h2 : s.pc.toNat + 2 ≤ 255) :
    fetchInstr m s = .ok (d.instr (s.mem.read (s.pc.toNat + 1)) (s.mem.read (s.pc.toNat + 2))) :=
  have h1 : s.pc.toNat + 1 ≤ 255 := by omega
  fetchInstr_of_operands hpc hd hn (fetchOperands_two (memRead_ok h1) (memRead_ok h2))

end

/-- Settles O16: the two ways the opcode ends the fetch, then the operand fetch by the entry's count and the first
address above 255. -/
theorem fetchAndOperandFetch : Obligations.FetchAndOperandFetch := fun _ _ =>
  ⟨fetchInstr_beyond, fetchInstr_unknown, fun _ hpc hd =>
    ⟨fetchInstr_no_operand hpc hd, fetchInstr_first_operand_beyond hpc hd, fetchInstr_one_operand hpc hd,
      fetchInstr_second_operand_beyond hpc hd, fetchInstr_two_operands hpc hd⟩⟩

end Machine
end Sys2Proof
end

section
/-!
PROOFS. The immediate load (rule R130), and what every instruction's statement shares with it: the count and the ALU
bit an admitted map gives an opcode, and the error of an ill-formed instruction.
-/
namespace Sys2Proof

theorem OpcodeMap.Valid.opcodeCount_eq {m : OpcodeMap} (hm : m.Valid) (d : Mnemonic) :
    opcodeCount (m d) = d.operandCount := by
  obtain ⟨-, hcount, -⟩ := hm
  exact hcount d

theorem OpcodeMap.Valid.opcodeAlu_eq {m : OpcodeMap} (hm : m.Valid) (d : Mnemonic) :
    opcodeAlu (m d) = d.aluClass := by
  obtain ⟨-, -, halu⟩ := hm
  exact halu d

namespace Machine

/-- Of the three ways an instruction can end, two need it well-formed. -/
theorem exec_of_not_wellFormed {i : Instr} (h : i.wellFormed = false) (s : State) :
    exec i s = .next (s.failed 2) := by
  obtain ⟨t, ht⟩ := exec_next i s
  rcases exec_cases ht with ⟨-, rfl⟩ | ⟨hw, -, -⟩ | ⟨hw, -⟩
  · exact ht
  · exact absurd hw (by simp [h])
  · exact absurd hw (by simp [h])

theorem Raises.registerOutOfRange {i : Instr} (h : i.wellFormed = false) (s : State) (r : RegOperand) :
    Raises i s (.registerOutOfRange r) :=
  ⟨s.failed 2, exec_of_not_wellFormed h s, rfl, rfl⟩

/-- The immediate takes no part in the check of rule R116. -/
theorem wellFormed_ldi (a : RegOperand) (imm : Byte) : (Instr.ldi a imm).wellFormed = true ↔ a.toNat < 8 :=
  wellFormed_one

/-- Settles O27: in range, LDI is one register write and an advance by 3; above 7 it is ill-formed; its encoding takes
n and alu from the map's constraints. -/
theorem ldiLoadsTheImmediate : Obligations.LdiLoadsTheImmediate := by
  refine fun a imm s => ⟨fun ha => ?result, fun ha => ?error, rfl, fun m hm => ?encoding⟩
  case result => exact ⟨_, exec_ldi s ha imm, by simp, rfl, Frame.setReg_advance s _ imm 2⟩
  case error =>
    have hill : (Instr.ldi a imm).wellFormed = false := by
      rw [Bool.eq_false_iff, ne_eq, wellFormed_ldi]
      omega
    exact Raises.registerOutOfRange hill s a
  case encoding => exact ⟨rfl, hm.opcodeCount_eq .ldi, hm.opcodeAlu_eq .ldi⟩

end Machine
end Sys2Proof
end

section
/-!
PROOFS. The table of `ALU.apply` (rule R140): for each operation whose result is a byte, the number the byte is, and the
three outcomes of the comparison.
-/
namespace Sys2Proof.Machine

/-- On sources for which `defined` holds, the operation's result is a byte, and that byte is the number `f` of the
sources. A unary operation is one whose `f` ignores its second argument. -/
def AluOp.Computes (op : AluOp) (defined : Byte → Byte → Prop) (f : Nat → Nat → Nat) : Prop :=
  ∀ x y : Byte, defined x y → ∃ v, aluApply op x y = .byte v ∧ v.toNat = f x.toNat y.toNat

/-- The same as an entry of the table. -/
theorem AluOp.Computes.apply_eq {op : AluOp} {defined : Byte → Byte → Prop} {f : Nat → Nat → Nat}
    (h : op.Computes defined f) {x y : Byte} (hd : defined x y) :
    aluApply op x y = .byte (BitVec.ofNat 8 (f x.toNat y.toNat)) := by
  obtain ⟨v, hv, hf⟩ := h x y hd
  rw [hv, ← hf, BitVec.ofNat_toNat, BitVec.setWidth_eq]

/-! ### Arithmetic: the integer result is reduced modulo 256 -/

theorem trunc8_toNat_eq {v : Int} {n : Nat} (h : v % 256 = n) : (trunc8 v).toNat = n := by
  have hv := trunc8_toNat v
  omega

theorem add_computes : AluOp.add.Computes (fun _ _ => True) (fun x y => (x + y) % 256) :=
  fun _ _ _ => ⟨_, rfl, trunc8_toNat_eq (by dsimp only; omega)⟩

theorem sub_computes : AluOp.sub.Computes (fun _ _ => True) (fun x y => (x + 256 - y) % 256) :=
  fun _ _ _ => ⟨_, rfl, trunc8_toNat_eq (by dsimp only; omega)⟩

theorem mul_computes : AluOp.mul.Computes (fun _ _ => True) (fun x y => x * y % 256) :=
  fun _ _ _ => ⟨_, rfl, trunc8_toNat_eq (by push_cast; rfl)⟩

theorem inc_computes : AluOp.inc.Computes (fun _ _ => True) (fun x _ => (x + 1) % 256) :=
  fun _ _ _ => ⟨_, rfl, trunc8_toNat_eq (by dsimp only; omega)⟩

theorem dec_computes : AluOp.dec.Computes (fun _ _ => True) (fun x _ => (x + 255) % 256) :=
  fun _ _ _ => ⟨_, rfl, trunc8_toNat_eq (by dsimp only; omega)⟩

/-! ### Division: the result is at most the dividend, so it needs no reduction -/

theorem toNat_ofNat_of_le {n : Nat} {x : Byte} (h : n ≤ x.toNat) : (BitVec.ofNat 8 n).toNat = n :=
  (BitVec.toNat_ofNat n 8).trans (Nat.mod_eq_of_lt (h.trans_lt x.isLt))

theorem div_computes : AluOp.div.Computes (fun _ y => y ≠ 0) (fun x y => x / y) :=
  fun _ _ hy => ⟨_, if_neg hy, toNat_ofNat_of_le (Nat.div_le_self _ _)⟩

theorem mod_computes : AluOp.mod.Computes (fun _ y => y ≠ 0) (fun x y => x % y) := by
  intro x y hy
  refine ⟨_, if_neg hy, ?_⟩
  rw [← Nat.mod_eq_sub]
  exact toNat_ofNat_of_le (Nat.mod_le _ _)

theorem aluApply_div_zero (x : Byte) {y : Byte} (hy : y = 0) : aluApply .div x y = .divideByZero := if_pos hy

theorem aluApply_mod_zero (x : Byte) {y : Byte} (hy : y = 0) : aluApply .mod x y = .divideByZero := if_pos hy

/-! ### Bitwise operations -/

theorem and_computes : AluOp.and.Computes (fun _ _ => True) (fun x y => x &&& y) :=
  fun x y _ => ⟨_, rfl, BitVec.toNat_and x y⟩

theorem or_computes : AluOp.or.Computes (fun _ _ => True) (fun x y => x ||| y) :=
  fun x y _ => ⟨_, rfl, BitVec.toNat_or x y⟩

theorem xor_computes : AluOp.xor.Computes (fun _ _ => True) (fun x y => x ^^^ y) :=
  fun x y _ => ⟨_, rfl, BitVec.toNat_xor x y⟩

theorem not_computes : AluOp.not.Computes (fun _ _ => True) (fun x _ => 255 - x) :=
  fun _ _ _ => ⟨_, rfl, BitVec.toNat_not⟩

/-! ### Comparison -/

theorem cmpFlags_of_eq {x y : Byte} (h : x.toNat = y.toNat) : cmpFlags x y = 0b001 := if_pos h

theorem cmpFlags_of_gt {x y : Byte} (h : x.toNat > y.toNat) : cmpFlags x y = 0b010 := by
  rw [cmpFlags, if_neg h.ne', if_pos h]

theorem cmpFlags_of_lt {x y : Byte} (h : x.toNat < y.toNat) : cmpFlags x y = 0b100 := by
  rw [cmpFlags, if_neg h.ne, if_neg h.not_gt]

/-- Settles O28: each entry is what its operation computes. -/
theorem aluFunctionTable : Obligations.AluFunctionTable := fun a _ =>
  ⟨add_computes.apply_eq trivial, sub_computes.apply_eq trivial, mul_computes.apply_eq trivial,
    div_computes.apply_eq, mod_computes.apply_eq, fun hb => ⟨aluApply_div_zero a hb, aluApply_mod_zero a hb⟩,
    inc_computes.apply_eq trivial, dec_computes.apply_eq trivial, rfl, rfl, rfl, not_computes.apply_eq trivial,
    fun h => congrArg AluResult.flags (cmpFlags_of_eq h), fun h => congrArg AluResult.flags (cmpFlags_of_gt h),
    fun h => congrArg AluResult.flags (cmpFlags_of_lt h)⟩

end Sys2Proof.Machine
end

section
/-!
PROOFS. The twelve ALU-class instructions (rules R142 to R155). Each is one of two templates around an operation of the
ALU, so its result, frame, errors and encoding follow from the template and from what its operation computes.
-/
namespace Sys2Proof.Machine

/-- One register-index operand above 7 is enough, whichever it is and whatever the others are. -/
theorem Raises.of_operand_above_seven {i : Instr} {r : RegOperand} (hmem : r ∈ i.registerOperands) (hr : r.toNat > 7)
    (s : State) : Raises i s (.registerOutOfRange r) := by
  refine Raises.registerOutOfRange (List.all_eq_false.mpr ⟨r, hmem, ?_⟩) s r
  rw [RegOperand.inRange, decide_eq_true_eq]
  omega

/-! ### Register-register instructions -/

/-- The instruction is the template of rules R142 and R155 around `op`, with opcode `code` under the default map. -/
structure IsAluRegReg (ins : Byte → Byte → Instr) (op : AluOp) (code : Byte) : Prop where
  exec_eq : ∀ a b s, exec (ins a b) s = aluRegReg op a b s
  operands : ∀ a b, (ins a b).registerOperands = [a, b]
  encoding : ∀ a b, encode (ins a b) = [code, a, b]
  count : opcodeCount code = 2
  alu : opcodeAlu code = true

section
variable {ins : Byte → Byte → Instr} {op : AluOp} {code : Byte} (hi : IsAluRegReg ins op code)
include hi

theorem IsAluRegReg.raises_opA {a : Byte} (ha : a.toNat > 7) (b : Byte) (s : State) :
    Raises (ins a b) s (.registerOutOfRange a) :=
  Raises.of_operand_above_seven (by simp [hi.operands]) ha s

theorem IsAluRegReg.raises_opB (a : Byte) {b : Byte} (hb : b.toNat > 7) (s : State) :
    Raises (ins a b) s (.registerOutOfRange b) :=
  Raises.of_operand_above_seven (by simp [hi.operands]) hb s

/-- An operation that computes a byte makes the instruction write that byte to opA and nothing else. -/
theorem IsAluRegReg.result {defined : Byte → Byte → Prop} {f : Nat → Nat → Nat} (hop : op.Computes defined f) :
    RegRegResult ins code defined f := by
  refine ⟨?result, fun a b s ha => hi.raises_opA ha b s, fun a b s _ hb => hi.raises_opB a hb s,
    hi.encoding, hi.count, hi.alu⟩
  intro a b ha hb s hd
  obtain ⟨v, hv, hf⟩ := hop _ _ hd
  refine ⟨_, (hi.exec_eq a b s).trans (aluRegReg_byte ha hb hv), ?_, rfl, Frame.setReg_advance s _ v 2⟩
  rw [State.reg_advance, State.reg_setReg_self, hf]

/-- The signal of the ALU ends the step with the state it began in, but for RUN and ERR. -/
theorem IsAluRegReg.exec_divideByZero {a b : Byte} (ha : a.toNat < 8) (hb : b.toNat < 8) {s : State}
    (h : aluApply op (s.reg ⟨a.toNat, ha⟩) (s.reg ⟨b.toNat, hb⟩) = .divideByZero) :
    exec (ins a b) s = .next (s.failed (CoreError.divideByZero s.pc).code) := by
  rw [hi.exec_eq, aluRegReg, withRegReg_ok ha hb, h, applyAlu_divideByZero, map_error, settle_error]

end

theorem isAluRegReg_add : IsAluRegReg .add .add 0xA8 := ⟨fun _ _ _ => rfl, fun _ _ => rfl, fun _ _ => rfl, rfl, rfl⟩

theorem isAluRegReg_sub : IsAluRegReg .sub .sub 0xA9 := ⟨fun _ _ _ => rfl, fun _ _ => rfl, fun _ _ => rfl, rfl, rfl⟩

theorem isAluRegReg_mul : IsAluRegReg .mul .mul 0xAA := ⟨fun _ _ _ => rfl, fun _ _ => rfl, fun _ _ => rfl, rfl, rfl⟩

theorem isAluRegReg_div : IsAluRegReg .div .div 0xAB := ⟨fun _ _ _ => rfl, fun _ _ => rfl, fun _ _ => rfl, rfl, rfl⟩

theorem isAluRegReg_mod : IsAluRegReg .mod .mod 0xAC := ⟨fun _ _ _ => rfl, fun _ _ => rfl, fun _ _ => rfl, rfl, rfl⟩

theorem isAluRegReg_and : IsAluRegReg .and .and 0xB3 := ⟨fun _ _ _ => rfl, fun _ _ => rfl, fun _ _ => rfl, rfl, rfl⟩

theorem isAluRegReg_or : IsAluRegReg .or .or 0xB1 := ⟨fun _ _ _ => rfl, fun _ _ => rfl, fun _ _ => rfl, rfl, rfl⟩

theorem isAluRegReg_xor : IsAluRegReg .xor .xor 0xB2 := ⟨fun _ _ _ => rfl, fun _ _ => rfl, fun _ _ => rfl, rfl, rfl⟩

theorem isAluRegReg_cmp : IsAluRegReg .cmp .cmp 0xA0 := ⟨fun _ _ _ => rfl, fun _ _ => rfl, fun _ _ => rfl, rfl, rfl⟩

/-- Settles O29: the template around three operations that compute on all sources. -/
theorem addSubMulWrap : Obligations.AddSubMulWrap :=
  ⟨isAluRegReg_add.result add_computes, isAluRegReg_sub.result sub_computes, isAluRegReg_mul.result mul_computes⟩

/-- Settles O30: DIV and MOD compute where the divisor is not 0, and signal where it is. -/
theorem divModAndDivideByZero : Obligations.DivModAndDivideByZero :=
  ⟨isAluRegReg_div.result div_computes, isAluRegReg_mod.result mod_computes, fun _ _ ha hb _ hzero =>
    ⟨isAluRegReg_div.exec_divideByZero ha hb (aluApply_div_zero _ hzero),
      isAluRegReg_mod.exec_divideByZero ha hb (aluApply_mod_zero _ hzero)⟩⟩

/-- Settles O31: the template around the three bitwise operations. -/
theorem andOrXorAreBitwise : Obligations.AndOrXorAreBitwise :=
  ⟨isAluRegReg_and.result and_computes, isAluRegReg_or.result or_computes, isAluRegReg_xor.result xor_computes⟩

/-- The result of a comparison, as the value FL takes: masking to the three flags loses nothing. -/
theorem cmpFlags_masked_eq (x y : Byte) :
    (x.toNat = y.toNat → (cmpFlags x y).setWidth 8 &&& 0x07 = 0b00000001#8) ∧
    (x.toNat > y.toNat → (cmpFlags x y).setWidth 8 &&& 0x07 = 0b00000010#8) ∧
    (x.toNat < y.toNat → (cmpFlags x y).setWidth 8 &&& 0x07 = 0b00000100#8) := by
  refine ⟨fun h => ?_, fun h => ?_, fun h => ?_⟩
  · rw [cmpFlags_of_eq h]
    rfl
  · rw [cmpFlags_of_gt h]
    rfl
  · rw [cmpFlags_of_lt h]
    rfl

/-- Settles O33: CMP is one write of FL and an advance by 3. -/
theorem cmpSetsExactlyOneFlag : Obligations.CmpSetsExactlyOneFlag := by
  have hi := isAluRegReg_cmp
  refine ⟨?result, fun a b s ha => hi.raises_opA ha b s, fun a b s _ hb => hi.raises_opB a hb s,
    hi.encoding, hi.count, hi.alu⟩
  intro a b ha hb s
  obtain ⟨heq, hgt, hlt⟩ := cmpFlags_masked_eq (s.reg ⟨a.toNat, ha⟩) (s.reg ⟨b.toNat, hb⟩)
  exact ⟨_, exec_cmp s ha hb, heq, hgt, hlt, rfl, Frame.setFL_advance s _ 2⟩

/-! ### Unary instructions -/

/-- The instruction is the template of rule R151 around `op`, with opcode `code` under the default map. -/
structure IsAluReg (ins : Byte → Instr) (op : AluOp) (code : Byte) : Prop where
  exec_eq : ∀ a s, exec (ins a) s = aluReg op a s
  operands : ∀ a, (ins a).registerOperands = [a]
  encoding : ∀ a, encode (ins a) = [code, a]
  count : opcodeCount code = 1
  alu : opcodeAlu code = true

/-- The second source of a unary operation is 0 and takes no part in the result. -/
theorem IsAluReg.result {ins : Byte → Instr} {op : AluOp} {code : Byte} {f : Nat → Nat} (hi : IsAluReg ins op code)
    (hop : op.Computes (fun _ _ => True) (fun x _ => f x)) : UnaryResult ins code f := by
  refine ⟨?result, fun a s ha => Raises.of_operand_above_seven (by simp [hi.operands]) ha s,
    hi.encoding, hi.count, hi.alu⟩
  intro a ha s
  obtain ⟨v, hv, hf⟩ := hop (s.reg ⟨a.toNat, ha⟩) 0 trivial
  refine ⟨_, (hi.exec_eq a s).trans (aluReg_byte ha hv), ?_, rfl, Frame.setReg_advance s _ v 1⟩
  rw [State.reg_advance, State.reg_setReg_self, hf]

theorem isAluReg_inc : IsAluReg .inc .inc 0x78 := ⟨fun _ _ => rfl, fun _ => rfl, fun _ => rfl, rfl, rfl⟩

theorem isAluReg_dec : IsAluReg .dec .dec 0x79 := ⟨fun _ _ => rfl, fun _ => rfl, fun _ => rfl, rfl, rfl⟩

theorem isAluReg_not : IsAluReg .not .not 0x70 := ⟨fun _ _ => rfl, fun _ => rfl, fun _ => rfl, rfl, rfl⟩

/-- Settles O32: the template around the three unary operations. -/
theorem incDecNotResult : Obligations.IncDecNotResult :=
  ⟨isAluReg_inc.result inc_computes, isAluReg_dec.result dec_computes, isAluReg_not.result not_computes⟩

end Sys2Proof.Machine
end

section
/-!
PROOFS. The jumps (rules R180 to R185) and RET (rule R191). Each jump is one template around a condition on FL, so its
two targets, frame and encoding follow from the template and from what its condition tests.
-/
namespace Sys2Proof.Machine

/-- The instruction is the template of rule R180 around the condition `c`, with opcode `code` under the default map. -/
structure IsJump (ins : Byte → Instr) (c : Cond) (code : Byte) : Prop where
  exec_eq : ∀ a s, exec (ins a) s = jumpIf c a s
  encoding : ∀ a, encode (ins a) = [code, a]

/-- The condition is tested on FL with its hardwired bits masked; `taken` says it of the whole byte. Either way the
jump is one write of pc. -/
theorem IsJump.result {ins : Byte → Instr} {c : Cond} {code : Byte} {taken : Byte → Prop} (hi : IsJump ins c code)
    (hc : ∀ s : State, c.holds s.flags = true ↔ taken s.fl) : JumpResult ins code taken := by
  refine ⟨fun a ha s => ?_, hi.encoding⟩
  rw [hi.exec_eq, ← hc s]
  by_cases h : c.holds s.flags = true
  · exact ⟨_, jumpIf_taken s ha h, fun _ => pcOfByte_toNat _, fun hn => absurd h hn, Frame.setPc s _⟩
  · exact ⟨_, jumpIf_not_taken s ha h, fun ht => absurd ht h, fun _ => rfl, Frame.advance s 1⟩

/-! ### What each condition tests: a flag is one of the three bits the mask keeps -/

theorem Cond.always_holds_iff (s : State) : Cond.always.holds s.flags = true ↔ True := iff_of_true rfl trivial

theorem Cond.equal_holds_iff (s : State) : Cond.equal.holds s.flags = true ↔ s.fl.getLsbD 0 = true := by
  rw [Cond.holds, State.flags_getLsbD s (by decide)]

theorem Cond.greater_holds_iff (s : State) : Cond.greater.holds s.flags = true ↔ s.fl.getLsbD 1 = true := by
  rw [Cond.holds, State.flags_getLsbD s (by decide)]

theorem Cond.less_holds_iff (s : State) : Cond.less.holds s.flags = true ↔ s.fl.getLsbD 2 = true := by
  rw [Cond.holds, State.flags_getLsbD s (by decide)]

theorem isJump_jmp : IsJump .jmp .always 0x50 := ⟨fun _ _ => rfl, fun _ => rfl⟩

theorem isJump_jeq : IsJump .jeq .equal 0x51 := ⟨fun _ _ => rfl, fun _ => rfl⟩

theorem isJump_jgt : IsJump .jgt .greater 0x54 := ⟨fun _ _ => rfl, fun _ => rfl⟩

theorem isJump_jlt : IsJump .jlt .less 0x53 := ⟨fun _ _ => rfl, fun _ => rfl⟩

/-- Settles O35: the template around each of the four conditions. -/
theorem jmpJeqJgtJltTransfer : Obligations.JmpJeqJgtJltTransfer :=
  ⟨isJump_jmp.result Cond.always_holds_iff, isJump_jeq.result Cond.equal_holds_iff,
    isJump_jgt.result Cond.greater_holds_iff, isJump_jlt.result Cond.less_holds_iff⟩

/-- Settles O38: RET is one pop into pc, whose target is the zero-extended byte at SP; n and alu come from the default
opcode. -/
theorem retPopsReturnAddress : Obligations.RetPopsReturnAddress :=
  ⟨fun s => ⟨_, exec_ret s, pcOfByte_toNat (s.load8 s.sp), State.sp_popPc s, Frame.popPc s⟩, rfl, rfl, rfl⟩

end Sys2Proof.Machine
end

section
/-!
PROOFS. LD and ST (rules R212, R213): opA holds the address in both. LD is one register write of the byte found there,
ST one memory write of a register.
-/
namespace Sys2Proof.Machine

section
variable {ins : Byte → Byte → Instr} (hops : ∀ a b, (ins a b).registerOperands = [a, b])
include hops

theorem Raises.of_opA_above_seven (a b : Byte) (s : State) (ha : a.toNat > 7) :
    Raises (ins a b) s (.registerOutOfRange a) :=
  Raises.of_operand_above_seven (by simp [hops]) ha s

theorem Raises.of_opB_above_seven (a b : Byte) (s : State) (hb : b.toNat > 7) :
    Raises (ins a b) s (.registerOutOfRange b) :=
  Raises.of_operand_above_seven (by simp [hops]) hb s

end

/-- Settles O43: the address is read from opA before opB is written, so opA = opB needs no case of its own. -/
theorem ldLoadsTheAddressedByte : Obligations.LdLoadsTheAddressedByte := by
  have hops (a b : Byte) : (Instr.ld a b).registerOperands = [a, b] := rfl
  refine ⟨fun a b ha hb s => ?result, Raises.of_opA_above_seven hops,
    fun a b s _ => Raises.of_opB_above_seven hops a b s, fun _ _ => rfl, rfl, rfl⟩
  exact ⟨_, exec_ld s ha hb, State.reg_setReg_self s _ _, rfl, Frame.setReg_advance s _ _ 2⟩

/-- Settles O44: the canonical form of the memory is needed only to read the stored byte back; the frame holds without
it. -/
theorem stStoresTheRegister : Obligations.StStoresTheRegister := by
  have hops (a b : Byte) : (Instr.st a b).registerOperands = [a, b] := rfl
  refine ⟨fun a b ha hb s => ?result, Raises.of_opA_above_seven hops,
    fun a b s _ => Raises.of_opB_above_seven hops a b s, fun _ _ => rfl, rfl, rfl⟩
  exact ⟨_, exec_st s ha hb, fun hwf => Memory.read_write_same s.mem hwf _ _, rfl, Frame.store8_advance s _ _ 2⟩

end Sys2Proof.Machine
end

section
/-!
PROOFS. NOP (rule R233), and a region of zero bytes under the default map: each step over a zero byte is one NOP, and a
run over a region is an induction on its length.
-/
namespace Sys2Proof.Machine

theorem exec_nop (s : State) : exec .nop s = .next (s.advance 0) := rfl

/-- Under the default map the zero byte is NOP's opcode, so no operand is fetched: this holds at the last cell too. -/
theorem fetchInstr_zero_byte {s : State} (hpc : s.pc.toNat ≤ 255) (h0 : s.mem.read s.pc.toNat = 0x00) :
    fetchInstr defaultOpcodeMap s = .ok .nop := by
  have hd : decodeOpcode defaultOpcodeMap (s.mem.read s.pc.toNat) = some .nop := by rw [h0]; rfl
  exact fetchInstr_no_operand hpc hd rfl

theorem step_zero_byte {s : State} (hr : s.run = .running) (hpc : s.pc.toNat ≤ 255)
    (h0 : s.mem.read s.pc.toNat = 0x00) : step s = exec .nop s :=
  cycle_ok hr (fetchInstr_zero_byte hpc h0)

/-- Of every machine behind the host's interface: one more step is a first step, then the run from what it answers. -/
theorem core_run_succ_of_next {M : Host.Core} {s t : M.State} (h : M.step s = .next t) (n : Nat) :
    M.run (n + 1) s = M.run n t := by
  rw [Host.Core.run, h]

/-- The nine-bit pc does not wrap on leaving a cell of memory, the last one included. -/
theorem State.advance_zero_pc_toNat {s : State} (hpc : s.pc.toNat ≤ 255) :
    (s.advance 0).pc.toNat = s.pc.toNat + 1 := by
  rw [State.advance_pc, BitVec.toNat_add, BitVec.toNat_ofNat]
  omega

/-- The first step is a NOP; what is left of the region starts one cell further up. -/
theorem core_run_zero_region (n : Nat) (s : State) (hr : s.run = .running) (hend : s.pc.toNat + n ≤ 256)
    (hzero : ∀ k < n, s.mem.read (s.pc.toNat + k) = 0x00) :
    Sys2Proof.core.run n s = .next (s.setPc (s.pc + BitVec.ofNat 9 n)) := by
  induction n generalizing s with
  | zero => rw [BitVec.add_zero]; rfl
  | succ n ih =>
    have hpc : s.pc.toNat ≤ 255 := by omega
    have hpc' := State.advance_zero_pc_toNat hpc
    have hstep : step s = .next (s.advance 0) := step_zero_byte hr hpc (hzero 0 (by omega))
    have hrest : ∀ k < n, (s.advance 0).mem.read ((s.advance 0).pc.toNat + k) = 0x00 := by
      intro k hk
      rw [hpc', Nat.add_assoc, Nat.add_comm 1 k]
      exact hzero (k + 1) (by omega)
    have hsum : (s.advance 0).pc + BitVec.ofNat 9 n = s.pc + BitVec.ofNat 9 (n + 1) := by
      rw [State.advance_pc, BitVec.add_assoc, ← BitVec.ofNat_add, Nat.add_comm n 1]
    calc Sys2Proof.core.run (n + 1) s
      _ = Sys2Proof.core.run n (s.advance 0) := core_run_succ_of_next hstep n
      _ = .next ((s.advance 0).setPc ((s.advance 0).pc + BitVec.ofNat 9 n)) := ih _ hr (by omega) hrest
      _ = .next (s.setPc (s.pc + BitVec.ofNat 9 (n + 1))) := by rw [hsum]; rfl

/-- Settles O49: NOP is one advance by 1; n and alu come from the map's constraints; the last two clauses are the step
over a zero byte and the run over a zero region. -/
theorem nopOnlyAdvances : Obligations.NopOnlyAdvances :=
  ⟨fun s => ⟨_, exec_nop s, rfl, Frame.advance s 0⟩,
    fun _ hm => ⟨rfl, hm.opcodeCount_eq .nop, hm.opcodeAlu_eq .nop⟩, rfl, fun _ => step_zero_byte,
    core_run_zero_region⟩

end Sys2Proof.Machine
end

section
/-!
PROOFS. Error entry of a whole step (rules R262, R263, R116): each of the fetch, the register check and the ALU's signal
ends the step in the state before it, but for RUN and ERR.
-/
namespace Sys2Proof.Machine

/-- The register check of rule R116 names the first operand above 7; that there is one makes the instruction
ill-formed. -/
theorem not_wellFormed_of_find {i : Instr} {r : RegOperand}
    (h : i.registerOperands.find? (fun x => !RegOperand.inRange x) = some r) : i.wellFormed = false :=
  List.all_eq_false.mpr ⟨r, List.mem_of_find?_eq_some h, by simpa using List.find?_some h⟩

theorem exec_zero_divisor {i : Instr} {a b : Byte} (ha : a.toNat < 8) (hb : b.toNat < 8)
    (hi : i = .div a b ∨ i = .mod a b) {s : State} (hzero : s.reg ⟨b.toNat, hb⟩ = 0) :
    exec i s = .next (s.failed (CoreError.divideByZero s.pc).code) := by
  obtain rfl | rfl := hi
  · exact isAluRegReg_div.exec_divideByZero ha hb (aluApply_div_zero _ hzero)
  · exact isAluRegReg_mod.exec_divideByZero ha hb (aluApply_mod_zero _ hzero)

/-- Settles O17: a fetch error ends the step before anything executes; otherwise the step is the fetched instruction,
which is ill-formed in the second clause and divides by zero in the third. -/
theorem errorEntryHaltsAndRecords : Obligations.ErrorEntryHaltsAndRecords := by
  refine fun m s hrun => ⟨fun e he => ?fetch, fun i r hi hr => ?register, fun i a b ha hb hdm hi hzero => ?divide⟩
  case fetch => exact cycle_error hrun he
  case register => exact (cycle_ok hrun hi).trans (exec_of_not_wellFormed (not_wellFormed_of_find hr) s)
  case divide => exact (cycle_ok hrun hi).trans (exec_zero_divisor ha hb hdm hzero)

end Sys2Proof.Machine
end

section
/-!
PROOFS. How an instruction and a step request can end, in the terms of the frame: the one case split that the
statements about every instruction or every step share (rules R27, R51, R56, R110 to R118).
-/
namespace Sys2Proof.Machine

/-! ### The frame of an instruction in every case it can end in -/

/-- The frame when an error entry may take the place of the effect. -/
def Writes.orError (w : Writes) : Writes := { w with run := true, err := true }

theorem Frame.orError {w : Writes} {s t : State} (h : Frame w s t) : Frame w.orError s t where
  regs := h.regs
  cells := h.cells
  fl := h.fl
  is := h.is
  ie := h.ie
  run hrun := nomatch hrun
  err herr := nomatch herr
  out := h.out

theorem Frame.failed (w : Writes) (s : State) (c : BitVec 3) : Frame w.orError s (s.failed c) where
  regs _ _ := rfl
  cells _ _ := rfl
  fl _ := rfl
  is _ := rfl
  ie _ := rfl
  run hrun := nomatch hrun
  err herr := nomatch herr
  out _ := rfl

theorem exec_frame {i : Instr} {s t : State} (h : exec i s = .next t) : Frame (Instr.writes i s).orError s t := by
  rcases exec_cases h with ⟨-, rfl⟩ | ⟨-, -, rfl⟩ | ⟨-, heff⟩
  · exact Frame.failed _ s 2
  · exact Frame.failed _ s 3
  · exact heff.frame.orError

/-! ### Which instructions write a field -/

theorem writes_fl_eq_false {i : Instr} (h : i.mnemonic ∉ [Mnemonic.cmp, .iret]) (s : State) :
    (Instr.writes i s).fl = false := by
  cases i with
  | cmp | iret => exact absurd h (by simp [Instr.mnemonic])
  | _ => rfl

theorem writes_cells_eq_nil {i : Instr} (h : i.mnemonic ∉ [Mnemonic.st, .push, .call]) (s : State) :
    (Instr.writes i s).cells = [] := by
  cases i with
  | st | push | call => exact absurd h (by simp [Instr.mnemonic])
  | _ => rfl

theorem writes_out_eq_false {i : Instr} (h : i.mnemonic ∉ [Mnemonic.prn, .pra]) (s : State) :
    (Instr.writes i s).out = false := by
  cases i with
  | prn | pra => exact absurd h (by simp [Instr.mnemonic])
  | _ => rfl

theorem writes_run_eq_false {i : Instr} (h : i ≠ .hlt) (s : State) : (Instr.writes i s).run = false := by
  cases i with
  | hlt => exact absurd rfl h
  | _ => rfl

/-- Only an error entry writes ERR. -/
theorem writes_err_eq_false (i : Instr) (s : State) : (Instr.writes i s).err = false := by cases i <;> rfl

/-- Settles O34: FL is outside the frame of every other instruction, whether or not it ends in an error. -/
theorem onlyCmpAndIretWriteFlags : Obligations.OnlyCmpAndIretWriteFlags :=
  fun _ s _ ht hi => (exec_frame ht).fl (writes_fl_eq_false hi s)

/-- Settles O45: the frame of every other instruction names no memory cell. -/
theorem onlyStPushCallWriteMemory : Obligations.OnlyStPushCallWriteMemory := by
  intro i s t ht hi a
  refine (exec_frame ht).cells a ?_
  simp [Writes.orError, writes_cells_eq_nil hi s]

/-! ### How a step request of a running engine can end -/

theorem Effect.err_eq {i : Instr} {s t : State} (h : Effect i s t) : t.err = s.err :=
  h.frame.err (writes_err_eq_false i s)

/-- Either some error was entered, or a fetched instruction had its effect. -/
theorem cycle_ends {m : OpcodeMap} {s t : State} (hrun : s.run = .running) (h : cycle m s = .next t) :
    (∃ c : BitVec 3, 1 ≤ c.toNat ∧ c.toNat ≤ 4 ∧ t = s.failed c) ∨
    ∃ i, fetchInstr m s = .ok i ∧ Effect i s t := by
  rcases cycle_cases h with ⟨hhalt, -⟩ | ⟨-, e, -, rfl⟩ | ⟨-, i, hi, hexec⟩
  · exact nomatch hrun.symm.trans hhalt
  · obtain ⟨hlo, hhi⟩ := e.code_bounds
    exact .inl ⟨e.code, hlo, hhi, rfl⟩
  · rcases exec_cases hexec with ⟨-, rfl⟩ | ⟨-, -, rfl⟩ | ⟨-, heff⟩
    · exact .inl ⟨2, by decide, by decide, rfl⟩
    · exact .inl ⟨3, by decide, by decide, rfl⟩
    · exact .inr ⟨i, hi, heff⟩

theorem cycle_keeps {m : OpcodeMap} {s t : State} (h : cycle m s = .next t) : Keeps s t := by
  cases hrun : s.run with
  | halted =>
    rw [cycle_halted m hrun] at h
    cases h
    exact Keeps.refl s
  | running =>
    rcases cycle_ends hrun h with ⟨c, -, -, rfl⟩ | ⟨i, -, heff⟩
    · exact Keeps.failed s c
    · exact heff.keeps

/-- Settles O47: OUT is outside the frame of every other instruction, and a step request appends at most one event. -/
theorem onlyPrnPraAppendOutput : Obligations.OnlyPrnPraAppendOutput := by
  refine ⟨fun i s t ht hi => (exec_frame ht).out (writes_out_eq_false hi s), fun m s t ht => ?_⟩
  obtain ⟨es, hout, hlen⟩ := (cycle_keeps ht).out
  rw [hout, List.length_append]
  exact ⟨List.prefix_append s.out es, by omega⟩

/-- Settles O52: both are among what a step request keeps. -/
theorem interruptStateIsNeverCleared : Obligations.InterruptStateIsNeverCleared :=
  fun _ _ _ ht => ⟨(cycle_keeps ht).is, (cycle_keeps ht).ie⟩

end Sys2Proof.Machine
end

section
/-!
PROOFS. The invariant of rules R25, R26, R30 to R32 and R50: it holds after reset, an error entry keeps it, and so does
the effect of an instruction that was fetched whole.
-/
namespace Sys2Proof.Machine

theorem State.Inv.failed {s : State} (h : s.Inv) {c : BitVec 3} (hlo : 1 ≤ c.toNat) (hhi : c.toNat ≤ 4) :
    (s.failed c).Inv where
  memory := h.memory
  flags := h.flags
  pcBound := h.pcBound
  errCode := hhi
  errPc := h.pcBound
  errNone hc := by
    have hc : c = 0 := hc
    simp [hc] at hlo
  running hrun := nomatch hrun
  enabled := h.enabled

/-- The pc bound is where the whole fetch is needed: from 256 nothing is fetched, and from below the advance ends at
most one cell past the last (rule R25, decision D2). -/
theorem Effect.pc_le {i : Instr} {s t : State} (h : Effect i s t)
    (hfetch : s.pc.toNat + i.mnemonic.operandCount ≤ 255) : t.pc.toNat ≤ 256 := by
  rcases h.pc with hpc | ⟨-, b, hpc⟩
  · rw [hpc, BitVec.toNat_add, BitVec.toNat_ofNat, Instr.length]
    omega
  · rw [hpc, pcOfByte_toNat]
    omega

theorem Effect.inv {i : Instr} {s t : State} (h : Effect i s t) (hinv : s.Inv) (hrun : s.run = .running)
    (hfetch : s.pc.toNat + i.mnemonic.operandCount ≤ 255) : t.Inv where
  memory := h.keeps.mem hinv.memory
  flags := by
    rcases h.keeps.fl with hfl | hfl
    · rw [hfl]
      exact hinv.flags
    · exact hfl
  pcBound := h.pc_le hfetch
  errCode := by
    rw [h.err_eq]
    exact hinv.errCode
  errPc := by
    rw [h.err_eq]
    exact hinv.errPc
  errNone := by
    rw [h.err_eq]
    exact hinv.errNone
  running _ := by
    rw [h.err_eq]
    exact hinv.running hrun
  enabled := h.keeps.ie hinv.enabled

theorem cycle_inv {m : OpcodeMap} {s t : State} (hinv : s.Inv) (h : cycle m s = .next t) : t.Inv := by
  cases hrun : s.run with
  | halted =>
    rw [cycle_halted m hrun] at h
    cases h
    exact hinv
  | running =>
    rcases cycle_ends hrun h with ⟨c, hlo, hhi, rfl⟩ | ⟨i, hi, heff⟩
    · exact hinv.failed hlo hhi
    · exact heff.inv hinv hrun (fetchInstr_bound hi)

/-- Settles O4: an error entry or an effect keeps the invariant, and the machine's own step is the one under the default
map. -/
theorem stepKeepsInvariant : Obligations.StepKeepsInvariant :=
  ⟨fun _ _ _ => cycle_inv, fun _ _ => cycle_inv⟩

end Sys2Proof.Machine
end

section
/-!
PROOFS. The encoder and the decoder are inverse (rules R80 to R85): the round trip from an instruction, the round trip
from bytes, and what the first byte alone gives.
-/
namespace Sys2Proof

/-! ### From an instruction to its bytes and back -/

/-- The layout of every instruction, from its constructor's. -/
theorem layout (i : Instr) : Laws.Layout.Statement i :=
  match i with
  | .ldi dst imm => Laws.Layout.ldi dst imm
  | .add a b => Laws.Layout.add a b
  | .sub a b => Laws.Layout.sub a b
  | .mul a b => Laws.Layout.mul a b
  | .div a b => Laws.Layout.div a b
  | .mod a b => Laws.Layout.mod a b
  | .and a b => Laws.Layout.and a b
  | .or a b => Laws.Layout.or a b
  | .xor a b => Laws.Layout.xor a b
  | .inc r => Laws.Layout.inc r
  | .dec r => Laws.Layout.dec r
  | .not r => Laws.Layout.not r
  | .cmp a b => Laws.Layout.cmp a b
  | .jmp r => Laws.Layout.jmp r
  | .jeq r => Laws.Layout.jeq r
  | .jne r => Laws.Layout.jne r
  | .jgt r => Laws.Layout.jgt r
  | .jlt r => Laws.Layout.jlt r
  | .call r => Laws.Layout.call r
  | .ret => Laws.Layout.ret
  | .push r => Laws.Layout.push r
  | .pop r => Laws.Layout.pop r
  | .ld addr dst => Laws.Layout.ld addr dst
  | .st addr src => Laws.Layout.st addr src
  | .prn r => Laws.Layout.prn r
  | .pra r => Laws.Layout.pra r
  | .hlt => Laws.Layout.hlt
  | .nop => Laws.Layout.nop
  | .int r => Laws.Layout.int r
  | .iret => Laws.Layout.iret

/-- Settles O8: the map is injective, so the opcode gives the mnemonic back; the layout gives the operands back. -/
theorem decodeOfEncodeIsTheInstruction : Obligations.DecodeOfEncodeIsTheInstruction := by
  intro m hm i rest
  obtain ⟨opA, opB, hfetch, hinstr⟩ := layout i m rest
  have hdecode : decodeWith m (encodeWith m i ++ rest) = .ok (i.mnemonic.instr opA opB) :=
    decodeFrom_of rfl (decodeOpcode_complete hm i.mnemonic) hfetch
  rw [hdecode, hinstr]

/-! ### From bytes to an instruction and back -/

theorem listByte_ok_iff {bytes : List Byte} {k : Nat} {b : Byte} :
    listByte bytes k = .ok b ↔ bytes[k]? = some b := by
  cases h : bytes[k]? <;> simp [listByte, h]

/-- The operands fetched after an opcode are the bytes that follow it, as many as were asked for. -/
theorem take_of_fetchOperands {n : Nat} (hn : n ≤ 2) {op opA opB : Byte} {tail : List Byte}
    (h : fetchOperands n (listByte (op :: tail)) = .ok (opA, opB)) : tail.take n = [opA, opB].take n := by
  match n, tail with
  | 0, _ => rfl
  | 1, [] => nomatch h
  | 1, _ :: _ =>
    cases h
    rfl
  | 2, [] => nomatch h
  | 2, [_] => nomatch h
  | 2, _ :: _ :: _ =>
    cases h
    rfl

theorem Mnemonic.operands_instr (d : Mnemonic) (opA opB : Byte) :
    (d.instr opA opB).operands = [opA, opB].take d.operandCount := by
  cases d <;> rfl

/-- Settles O9: the opcode decoded is the map's for the mnemonic, and the operands decoded are the bytes after it. -/
theorem decodedBytesAreTheEncoding : Obligations.DecodedBytesAreTheEncoding := by
  intro m bytes i h
  obtain ⟨op, d, opA, opB, hop, hd, hfetch, rfl⟩ := decodeFrom_ok h
  cases bytes with
  | nil => nomatch hop
  | cons b tail =>
    cases hop
    rw [Instr.length, Nat.add_comm, List.take_succ_cons, encodeWith, Mnemonic.mnemonic_instr, decodeOpcode_sound hd,
      Mnemonic.operands_instr, take_of_fetchOperands d.operandCount_le hfetch]

/-- Settles O11: the length is one more than the operand count, which an admitted map's opcode carries. -/
theorem firstByteGivesLengthAndClass : Obligations.FirstByteGivesLengthAndClass := by
  intro m hm i
  rw [Instr.length_encodeWith, Instr.length, hm.opcodeCount_eq]
  exact ⟨rfl, rfl, i.mnemonic.operandCount_le, hm.opcodeAlu_eq i.mnemonic⟩

/-! ### The two printed tables -/

theorem defaultOpcodeMap_valid : defaultOpcodeMap.Valid := OpcodeMap.valid_of_check (by decide)

/-- Settles O10: each table is checked entry by entry against the three constraints. -/
theorem opcodeMapsMeetTheConstraints : Obligations.OpcodeMapsMeetTheConstraints :=
  ⟨defaultOpcodeMap_valid, OpcodeMap.valid_of_check (by decide)⟩

theorem OpcodeMap.Valid.injective {m : OpcodeMap} (hm : m.Valid) {d e : Mnemonic} (h : m d = m e) : d = e := by
  obtain ⟨hinj, -, -⟩ := hm
  exact hinj d e h

theorem decodeOpcode_isSome_iff {m : OpcodeMap} (hm : m.Valid) {op : Byte} :
    (decodeOpcode m op).isSome = true ↔ ∃ d, m d = op := by
  constructor
  · intro h
    obtain ⟨d, hd⟩ := Option.isSome_iff_exists.mp h
    exact ⟨d, decodeOpcode_sound hd⟩
  · rintro ⟨d, rfl⟩
    rw [decodeOpcode_complete hm d]
    rfl

/-- The byte values an admitted map assigns are its thirty entries, listed in another order. -/
theorem assigned_bytes_perm {m : OpcodeMap} (hm : m.Valid) :
    ((List.range 256).filter fun b => (decodeOpcode m (BitVec.ofNat 8 b)).isSome).Perm
      (Mnemonic.all.map fun d => (m d).toNat) := by
  have hnodup : (Mnemonic.all.map fun d => (m d).toNat).Nodup :=
    List.Nodup.map (fun _ _ h => hm.injective (BitVec.eq_of_toNat_eq h)) (by decide)
  refine (List.perm_ext_iff_of_nodup (List.nodup_range.filter _) hnodup).mpr fun b => ?_
  rw [List.mem_filter, List.mem_range, decodeOpcode_isSome_iff hm, List.mem_map]
  constructor
  · rintro ⟨hb, d, hd⟩
    exact ⟨d, d.mem_all, by rw [hd, BitVec.toNat_ofNat, Nat.mod_eq_of_lt hb]⟩
  · rintro ⟨d, -, rfl⟩
    exact ⟨(m d).isLt, d, by simp⟩

/-- Settles O13: under any admitted map thirty of the 256 values are assigned. -/
theorem illegalOpcodeBytesNumber226 : Obligations.IllegalOpcodeBytesNumber226 := by
  have hassigned := (assigned_bytes_perm defaultOpcodeMap_valid).length_eq
  have hsplit := List.length_eq_length_filter_add (l := List.range 256)
    fun b => (decodeOpcode defaultOpcodeMap (BitVec.ofNat 8 b)).isSome
  simp only [Option.not_isSome] at hsplit
  rw [hassigned, List.length_range, List.length_map] at hsplit
  rw [Obligations.IllegalOpcodeBytesNumber226]
  have hthirty : Mnemonic.all.length = 30 := rfl
  omega

/-- Settles O14: each word is split into its bytes and looked up in the default table. -/
theorem writtenOutWordsDecode : Obligations.WrittenOutWordsDecode :=
  ⟨rfl, rfl, rfl, rfl, rfl, rfl, rfl, rfl, rfl, rfl⟩

end Sys2Proof
end

section
/-!
PROOFS. The step request as a whole (rules R110 to R120, R260 to R266): it always answers, a halted engine stays as it
is, a running one executes what the bytes at pc decode to, and how the engine halts tells HLT from an error.
-/
namespace Sys2Proof.Machine

/-! ### Answering, and not answering any more -/

theorem cycle_next (m : OpcodeMap) (s : State) : ∃ t, cycle m s = .next t := by
  cases hrun : s.run with
  | halted => exact ⟨s, cycle_halted m hrun⟩
  | running =>
    cases hi : fetchInstr m s with
    | error e => exact ⟨_, cycle_error hrun hi⟩
    | ok i =>
      rw [cycle_ok hrun hi]
      exact exec_next i s

/-- Settles O21: exec answers, and so does a step request, the default map's among them. -/
theorem everyStepAnswersANextState : Obligations.EveryStepAnswersANextState :=
  ⟨exec_next, cycle_next, cycle_next defaultOpcodeMap⟩

/-- Settles O22: the first of the requests answers the same state, and so do the rest. -/
theorem haltedIsTerminal : Obligations.HaltedIsTerminal := by
  intro k s hhalt
  induction k with
  | zero => rfl
  | succ k ih =>
    have hstep : Sys2Proof.core.step s = .next s := cycle_halted defaultOpcodeMap hhalt
    rw [core_run_succ_of_next hstep, ih]

/-! ### The decoder and the fetch see the same bytes -/

theorem readCell_eq_some {s : State} {a : Nat} (h : a ≤ 255) : s.readCell a = some (s.mem.read a) := by
  rw [State.readCell, memRead_ok h]

theorem readCell_eq_none {s : State} {a : Nat} (h : a > 255) : s.readCell a = none := by
  rw [State.readCell, memRead_error h]

/-- Of values that are there only up to some point, dropping the missing ones moves none of the others. -/
theorem getElem?_filterMap_range {α : Type} {g : Nat → Option α} (hg : ∀ k, g k = none → g (k + 1) = none)
    {n k : Nat} {b : α} (h : ((List.range n).filterMap g)[k]? = some b) : g k = some b := by
  induction n generalizing g k with
  | zero => simp at h
  | succ n ih =>
    rw [List.range_succ_eq_map, List.filterMap_cons, List.filterMap_map] at h
    cases h0 : g 0 with
    | none =>
      have hnone (j : Nat) : g j = none := Nat.rec h0 hg j
      simp [h0, hnone] at h
    | some v =>
      cases k with
      | zero => simpa [h0] using h
      | succ k => exact ih (g := g ∘ Nat.succ) (fun j => hg (j + 1)) (by simpa [h0] using h)

/-- A byte of the list stands where the fetch looks for it: the cells beyond 255 are the last ones. -/
theorem memRead_of_listByte_bytesAtPc {s : State} {k : Nat} {b : Byte} (h : listByte s.bytesAtPc k = .ok b) :
    memRead (s.pc.toNat + k) s = .ok b := by
  have hcell : s.readCell (s.pc.toNat + k) = some b := by
    refine getElem?_filterMap_range (g := fun k => s.readCell (s.pc.toNat + k)) (fun j hj => ?_) (listByte_ok_iff.mp h)
    refine readCell_eq_none ?_
    by_contra hle
    rw [readCell_eq_some (by omega)] at hj
    cases hj
  rw [State.readCell] at hcell
  split at hcell
  · next v hv =>
    cases hcell
    exact hv
  · cases hcell

theorem fetchInstr_of_decodeWith {m : OpcodeMap} {s : State} {i : Instr} (h : decodeWith m s.bytesAtPc = .ok i) :
    fetchInstr m s = .ok i :=
  decodeFrom_eq_of_ok (fun _ _ => memRead_of_listByte_bytesAtPc) h

/-- Settles O15: what the bytes decode to is what the step fetches, and a running engine executes that. -/
theorem stepRunsTheDecodedInstruction : Obligations.StepRunsTheDecodedInstruction :=
  ⟨fun _ _ _ hrun h => cycle_ok hrun (fetchInstr_of_decodeWith h),
    fun _ _ hrun h => cycle_ok hrun (fetchInstr_of_decodeWith h)⟩

/-! ### Errors -/

/-- Settles O20: the check of the register operands comes before the instruction's own meaning. -/
theorem registerOperandAboveSevenRaises : Obligations.RegisterOperandAboveSevenRaises :=
  fun _ s h => exec_of_not_wellFormed h s

/-- The operand fetch is the only other way to reach beyond the memory: the last operand's address decides. -/
theorem fetchInstr_operands_beyond {m : OpcodeMap} {s : State} {d : Mnemonic} (hpc : s.pc.toNat ≤ 255)
    (hd : decodeOpcode m (s.mem.read s.pc.toNat) = some d) (hbeyond : s.pc.toNat + d.operandCount > 255) :
    ∃ a, fetchInstr m s = .error (.addressOutOfRange a) := by
  have hcount := d.operandCount_le
  by_cases hlast : s.pc.toNat = 255
  · exact ⟨_, fetchInstr_first_operand_beyond hpc hd (by omega) (by omega)⟩
  · exact ⟨_, fetchInstr_second_operand_beyond hpc hd (by omega) (by omega)⟩

/-- Settles O18: each way of raising an error is one of the fetch's, of the register check's or of the divisor's, and
the error it raises has its code. -/
theorem errorCodesAreOneToFour : Obligations.ErrorCodesAreOneToFour := by
  refine ⟨fun m s hrun => ⟨fun hpc => ?opcode, fun d hpc hd hbeyond => ?operands, fun hpc hd => ?unknown⟩,
    fun i s h => exec_of_not_wellFormed h s, fun i a b ha hb s hi hzero => exec_zero_divisor ha hb hi hzero⟩
  case opcode => exact cycle_error hrun (fetchInstr_beyond hpc)
  case operands =>
    obtain ⟨a, ha⟩ := fetchInstr_operands_beyond hpc hd hbeyond
    exact cycle_error hrun ha
  case unknown => exact cycle_error hrun (fetchInstr_unknown hpc hd)

/-- Settles O19: an effect leaves ERR as it was, so only an error entry can have written a code. -/
theorem failingStepCommitsNothingElse : Obligations.FailingStepCommitsNothingElse := by
  intro m s t hrun hok h hcode
  rcases cycle_ends hrun h with ⟨c, hlo, hhi, rfl⟩ | ⟨i, -, heff⟩
  · exact ⟨rfl, hlo, hhi⟩
  · rw [heff.err_eq] at hcode
    exact absurd hok hcode

/-! ### How the engine halts -/

/-- Of the instructions that have their effect, only HLT writes RUN. -/
theorem Effect.eq_hlt {i : Instr} {s t : State} (h : Effect i s t) (hrun : s.run = .running) (hhalt : t.run = .halted) :
    i = .hlt := by
  by_contra hi
  have hkept : t.run = s.run := h.frame.run (writes_run_eq_false hi s)
  rw [hrun, hhalt] at hkept
  cases hkept

theorem exec_hlt (s : State) : exec .hlt s = .next (s.halt.advance 0) := rfl

theorem fetched_hlt_of_endedNormally {m : OpcodeMap} {s t : State} (hrun : s.run = .running) (h : cycle m s = .next t)
    (hend : t.EndedNormally) : fetchInstr m s = .ok .hlt := by
  obtain ⟨hhalt, hcode⟩ := hend
  rcases cycle_ends hrun h with ⟨c, hlo, -, rfl⟩ | ⟨i, hi, heff⟩
  · obtain rfl : c = 0 := hcode
    exact absurd hlo (by decide)
  · rw [hi, heff.eq_hlt hrun hhalt]

theorem endedNormally_of_fetched_hlt {m : OpcodeMap} {s t : State} (hrun : s.run = .running) (hok : s.err.code = 0)
    (h : cycle m s = .next t) (hi : fetchInstr m s = .ok .hlt) : t.EndedNormally := by
  rw [cycle_ok hrun hi, exec_hlt] at h
  cases h
  exact ⟨rfl, hok⟩

/-- Settles O23: HLT is what writes RUN without an error, and an error's code is 1 to 4. -/
theorem normalHaltMeansHltWasExecuted : Obligations.NormalHaltMeansHltWasExecuted := by
  refine fun m s t hrun hok h hhalt =>
    ⟨⟨fetched_hlt_of_endedNormally hrun h, endedNormally_of_fetched_hlt hrun hok h⟩, ?_, ?_⟩
  · rintro ⟨-, hcode⟩
    exact (failingStepCommitsNothingElse m s t hrun hok h hcode).2
  · rintro ⟨hlo, -⟩
    exact ⟨hhalt, fun hzero => by simp [hzero] at hlo⟩

/-! ### The advance, and the next fetch -/

/-- Settles O24: the effect of an instruction that is no transfer ends at its own length; an error entry is excluded by
its code. -/
theorem nonTransferAdvancesByItsLength : Obligations.NonTransferAdvancesByItsLength := by
  intro i s t _ h hcode hi
  rcases exec_cases h with ⟨-, rfl⟩ | ⟨-, -, rfl⟩ | ⟨-, heff⟩
  · cases hcode
  · cases hcode
  · exact heff.pc.resolve_right fun ⟨htransfer, _⟩ => hi htransfer

/-- Settles O26: the stored byte is read back at the new pc, which the premise on the address puts within the memory. -/
theorem storeIsSeenByTheNextFetch : Obligations.StoreIsSeenByTheNextFetch := by
  intro a b ha hb s hwf haddr
  refine ⟨_, exec_st s ha hb, ?_⟩
  generalize s.reg ⟨a.toNat, ha⟩ = addr at haddr ⊢
  generalize s.reg ⟨b.toNat, hb⟩ = v
  have hpc : ((s.store8 addr v).advance 2).pc.toNat = addr.toNat := haddr.symm
  have hbound : addr.toNat ≤ 255 := Nat.le_of_lt_succ addr.isLt
  have hread : ((s.store8 addr v).advance 2).mem.read addr.toNat = v := Memory.read_write_same s.mem hwf _ _
  rw [hpc, memRead_ok hbound, hread]
  refine ⟨rfl, fun m hd => ?_⟩
  have hfetch := fetchInstr_unknown (m := m) (s := (s.store8 addr v).advance 2) (by rw [hpc]; exact hbound)
    (by rw [hpc, hread]; exact hd)
  rwa [hpc, hread] at hfetch

end Sys2Proof.Machine
end

section
/-!
PROOFS. Reset, program load and what the host reads (rules R35, R36, R66, R230, R290 to R292).
-/
namespace Sys2Proof.Machine

/-! ### Reset -/

/-- Settles O1: every field but the memory is the one of the fixed reset state; the memory is filled cell by cell. -/
theorem launchStateAfterReset : Obligations.LaunchStateAfterReset := by
  intro memInit
  have hregs : ∀ r : RegId, r ≠ 7 → State.reset.reg r = 0 := by decide
  refine ⟨fun r hr => ?regs, rfl, rfl, rfl, rfl, rfl, rfl, rfl, rfl, fun a ha => ?cells⟩
  case regs => rw [State.launch_reg, hregs r hr]
  case cells =>
    rw [State.launch_mem]
    exact Memory.read_fill memInit (Nat.le_refl _) (Nat.lt_succ_of_le ha)

/-- A memory of zeros lists no cell. -/
theorem Memory.fill_zero (n : Nat) : Memory.fill (fun _ => 0) n = [] := by
  induction n with
  | zero => rfl
  | succ n ih => rw [Memory.fill, ih, Memory.write, if_pos (by rfl)]

/-- Settles O2: the two states can differ in memory alone. -/
theorem resetIsTheZeroMemoryLaunch : Obligations.ResetIsTheZeroMemoryLaunch := by
  rw [Obligations.ResetIsTheZeroMemoryLaunch, State.launch, Memory.fill_zero]
  rfl

theorem State.Inv.launch (memInit : MemInit) : (State.launch memInit).Inv where
  memory := by
    rw [State.launch_mem]
    exact Memory.wf_fill memInit (Nat.le_refl _)
  flags := by
    rw [State.launch_fl]
    decide
  pcBound := by
    rw [State.launch_pc]
    decide
  errCode := by
    rw [State.launch_err]
    decide
  errPc := by
    rw [State.launch_err]
    decide
  errNone _ := rfl
  running _ := rfl
  enabled := rfl

/-- Settles O3: the fixed reset state is one of the launches. -/
theorem invariantHoldsAfterReset : Obligations.InvariantHoldsAfterReset :=
  ⟨State.Inv.launch, resetIsTheZeroMemoryLaunch ▸ State.Inv.launch _⟩

/-! ### Program load -/

theorem State.load_eq_some {offset : Nat} {bytes : List Int} (h : offset + bytes.length ≤ 256) (s : State) :
    s.load offset bytes = some { s with mem := Memory.writeAll s.mem offset bytes } := if_pos (.inr h)

theorem State.load_eq_none {offset : Nat} {bytes : List Int} (hne : bytes ≠ []) (h : offset + bytes.length > 256)
    (s : State) : s.load offset bytes = none :=
  if_neg fun hor => hor.elim hne (Nat.not_le.mpr h)

theorem State.poke_eq_some {a : Nat} (h : a ≤ 255) (v : Int) (s : State) :
    s.poke a v = some { s with mem := s.mem.write a (trunc8 v) } := by
  rw [State.poke, memWrite_ok h]

theorem State.poke_eq_none {a : Nat} (h : a > 255) (v : Int) (s : State) : s.poke a v = none := by
  rw [State.poke, memWrite_error h]

/-- Settles O5: the bound decides between all and nothing; the memory's laws give the cells of a load within it, and one
write is a load of one value. -/
theorem programLoadWritesAllOrNothing : Obligations.ProgramLoadWritesAllOrNothing := by
  refine ⟨fun offset bytes s hwf hfit => ⟨_, State.load_eq_some hfit s, fun j hj => ?written,
      fun a ha => Memory.read_writeAll_other bytes s.mem offset a ha, Memory.wf_writeAll bytes s.mem offset hwf hfit,
      rfl⟩,
    fun offset bytes s hne hover => State.load_eq_none hne hover s, fun a v s ha => ?poke,
    fun a v s ha => State.poke_eq_none ha v s⟩
  case written =>
    rw [Memory.read_writeAll bytes s.mem offset hwf hfit j hj]
    exact trunc8_toNat bytes[j]
  case poke =>
    have hfit : a + [v].length ≤ 256 := Nat.succ_le_succ ha
    rw [State.poke_eq_some ha, State.load_eq_some hfit]
    rfl

/-! ### Reading state -/

/-- Settles O6: each read is decided by its bound. -/
theorem hostReadsRegistersAndCells : Obligations.HostReadsRegistersAndCells :=
  ⟨fun _ r => dif_pos r.isLt, fun _ _ h => dif_neg (Nat.not_lt.mpr h), fun _ _ => readCell_eq_some,
    fun _ _ => readCell_eq_none⟩

/-! ### The rendering of a decimal event -/

theorem decimalDigit_toNat (n : Nat) : (decimalDigit n).toNat = 48 + n % 10 := by
  have hvalid : (48 + n % 10).isValidChar := .inl (by omega)
  rw [decimalDigit, Char.toNat_ofNat, if_pos hvalid]

theorem decimalDigit_range (n : Nat) : 48 ≤ (decimalDigit n).toNat ∧ (decimalDigit n).toNat ≤ 57 := by
  rw [decimalDigit_toNat]
  omega

theorem decimalDigit_ne_zero {n : Nat} (h : n % 10 ≠ 0) : decimalDigit n ≠ '0' := by
  intro hzero
  have hval := decimalDigit_toNat n
  rw [hzero] at hval
  have h48 : '0'.toNat = 48 := rfl
  omega

/-- The three lengths of a rendering, by the size of the number. -/
theorem decimalDigits_cases (v : Byte) :
    (v.toNat < 10 ∧ decimalDigits v = [decimalDigit v.toNat]) ∨
    (10 ≤ v.toNat ∧ v.toNat < 100 ∧ decimalDigits v = [decimalDigit (v.toNat / 10), decimalDigit v.toNat]) ∨
    (100 ≤ v.toNat ∧
      decimalDigits v = [decimalDigit (v.toNat / 100), decimalDigit (v.toNat / 10), decimalDigit v.toNat]) := by
  by_cases h1 : v.toNat < 10
  · exact .inl ⟨h1, if_pos h1⟩
  · by_cases h2 : v.toNat < 100
    · exact .inr (.inl ⟨by omega, h2, (if_neg h1).trans (if_pos h2)⟩)
    · exact .inr (.inr ⟨by omega, (if_neg h1).trans (if_neg h2)⟩)

theorem decimalDigits_spell (v : Byte) :
    (decimalDigits v).foldl (fun n c => 10 * n + (c.toNat - 48)) 0 = v.toNat := by
  have hv := v.isLt
  rcases decimalDigits_cases v with ⟨h1, hd⟩ | ⟨-, h2, hd⟩ | ⟨-, hd⟩ <;>
    simp only [hd, List.foldl_cons, List.foldl_nil, decimalDigit_toNat] <;> omega

theorem decimalDigits_range (v : Byte) : ∀ c ∈ decimalDigits v, 48 ≤ c.toNat ∧ c.toNat ≤ 57 := by
  rcases decimalDigits_cases v with ⟨-, hd⟩ | ⟨-, -, hd⟩ | ⟨-, hd⟩ <;>
    simp only [hd, List.forall_mem_cons, decimalDigit_range, true_and, List.not_mem_nil, false_implies, implies_true]

theorem decimalDigits_head_ne {v : Byte} (h : v ≠ 0) : (decimalDigits v).head? ≠ some '0' := by
  have hv := v.isLt
  have hpos : v.toNat ≠ 0 := fun hzero => h (BitVec.eq_of_toNat_eq hzero)
  rcases decimalDigits_cases v with ⟨h1, hd⟩ | ⟨h1, h2, hd⟩ | ⟨h2, hd⟩ <;>
    simp only [hd, List.head?_cons, ne_eq, Option.some_inj] <;>
    exact decimalDigit_ne_zero (by omega)

/-- Settles O7: one digit, two or three, by the size of the byte; the leading one is a nonzero quotient. -/
theorem decimalDigitsSpellTheByte : Obligations.DecimalDigitsSpellTheByte := by
  refine fun v => ⟨decimalDigits_spell v, decimalDigits_range v, decimalDigits_head_ne, ?_⟩
  rintro rfl
  rfl

end Sys2Proof.Machine
end

section
/-!
PROOFS. JNE (rule R183), the stack instructions with their decisions for R7 (rules R190, R192, R210, R211), output
(rules R230, R231), HLT, INT and IRET (rules R232, R234, R235).
-/
namespace Sys2Proof.Machine

/-! ### JNE -/

theorem Cond.notEqual_holds_iff (s : State) : Cond.notEqual.holds s.flags = true ↔ s.fl.getLsbD 0 = false := by
  rw [Cond.holds, State.flags_getLsbD s (by decide), Bool.not_eq_true']

theorem isJump_jne : IsJump .jne .notEqual 0x52 := ⟨fun _ _ => rfl, fun _ => rfl⟩

/-- Settles O36: the template of the jumps around its condition, which FL after reset meets. -/
theorem jneTakenWhenEqualIsClear : Obligations.JneTakenWhenEqualIsClear := by
  have hjump : JumpResult .jne 0x52 (fun fl => fl.getLsbD 0 = false) := isJump_jne.result Cond.notEqual_holds_iff
  refine ⟨hjump, fun memInit a ha => ?_⟩
  obtain ⟨t, ht, htaken, -⟩ := hjump.1 a ha (State.launch memInit)
  refine ⟨t, ht, htaken ?_⟩
  rw [State.launch_fl]
  rfl

/-! ### The stack -/

theorem mk_ne_spId {n : Nat} (hn : n < 8) (h : n ≠ 7) : (⟨n, hn⟩ : RegId) ≠ spId := by
  simpa [spId, Fin.ext_iff] using h

/-- What a push has stored is found at the new SP. -/
theorem load8_sp_push {s : State} (hwf : s.mem.wf = true) (v : Byte) :
    (s.decSp.store8 s.decSp.sp v).load8 s.decSp.sp = v :=
  Memory.read_write_same s.mem hwf _ v

theorem returnAddress_toNat (pc : PcWord) : (returnAddress pc).toNat = (pc.toNat + 2) % 256 :=
  trunc8_toNat_eq (by omega)

/-- Reading the operand register after the decrement makes a difference for R7 alone (decision D7). -/
theorem reg_decSp_mk (s : State) {n : Nat} (hn : n < 8) :
    (n ≠ 7 → s.decSp.reg ⟨n, hn⟩ = s.reg ⟨n, hn⟩) ∧ (n = 7 → s.decSp.reg ⟨n, hn⟩ = s.sp - 1) := by
  constructor
  · intro h
    rw [State.reg_decSp, if_neg (mk_ne_spId hn h)]
  · rintro rfl
    exact s.sp_decSp

/-- Settles O37: CALL is a push of the return address, then a write of pc from the register read after the decrement. -/
theorem callPushesReturnAddress : Obligations.CallPushesReturnAddress := by
  intro a ha s
  obtain ⟨hother, hsp⟩ := reg_decSp_mk s ha
  refine ⟨_, exec_call s ha, s.sp_decSp, s.sp_decSp, fun hwf => ?stored, fun h => ?target, fun h => ?target7,
    Frame.push_setPc s _ _⟩
  case stored => exact (congrArg BitVec.toNat (load8_sp_push hwf _)).trans (returnAddress_toNat s.pc)
  case target => exact (pcOfByte_toNat _).trans (congrArg BitVec.toNat (hother h))
  case target7 => exact (pcOfByte_toNat _).trans (congrArg BitVec.toNat (hsp h))

/-- Settles O40: PUSH is a push of the register read after the decrement. -/
theorem pushStoresRegister : Obligations.PushStoresRegister := by
  intro a ha s
  obtain ⟨hother, hsp⟩ := reg_decSp_mk s ha
  exact ⟨_, exec_push s ha, s.sp_decSp, s.sp_decSp, fun hwf h => (load8_sp_push hwf _).trans (hother h),
    fun hwf h => (load8_sp_push hwf _).trans (hsp h), rfl, Frame.push_setPc s _ _⟩

/-- SP is read after the register write, which makes a difference for R7 alone (decision D7). -/
theorem State.sp_popReg_spId (s : State) : (s.popReg spId).sp = s.load8 s.sp + 1 := by
  rw [State.sp, State.reg_popReg, if_pos rfl, State.sp, State.reg_setReg_self]

theorem State.reg_popReg_self (s : State) {r : RegId} (h : r ≠ spId) : (s.popReg r).reg r = s.load8 s.sp := by
  rw [State.reg_popReg, if_neg h, if_pos rfl]

/-- The frame of a pop, with its registers in the order of the statement of POP. -/
theorem Frame.popReg_advance_swap (s : State) (r : RegId) (n : Nat) :
    Frame { regs := [r, 7] } s ((s.popReg r).advance n) :=
  { Frame.popReg_advance s r n with
    regs := fun q hq => (Frame.popReg_advance s r n).regs q (by simpa [and_comm] using hq) }

/-- Settles O41: POP is one pop into a register; into R7 the increment comes after the write. -/
theorem popLoadsRegister : Obligations.PopLoadsRegister := by
  intro a ha s
  refine ⟨_, exec_pop s ha, fun h => ?other, fun h => ?sp, rfl, Frame.popReg_advance_swap s _ 1⟩
  case other =>
    have hr := mk_ne_spId ha h
    exact ⟨s.reg_popReg_self hr, s.sp_popReg hr⟩
  case sp =>
    have hr : (⟨a.toNat, ha⟩ : RegId) = spId := Fin.ext h
    rw [hr]
    exact s.sp_popReg_spId

/-! ### A push and then a pop -/

/-- When SP is back where it was, what the pair has written is what the pop wrote besides SP, and the stack slot. -/
theorem Frame.push_pop {s t u : State} {rs : List RegId} {slots : List Nat}
    (hpush : Frame { regs := [7], cells := slots } s t) (hpop : Frame { regs := rs ++ [7] } t u) (hsp : u.sp = s.sp) :
    Frame { regs := rs, cells := slots } s u where
  regs q hq := by
    by_cases h7 : q = 7
    · subst h7
      exact hsp
    · have hq' : q ∉ rs ++ [7] := by simpa [h7] using hq
      rw [hpop.regs q hq', hpush.regs q (by simpa using h7)]
  cells a ha := (hpop.cells a List.not_mem_nil).trans (hpush.cells a ha)
  fl _ := (hpop.fl rfl).trans (hpush.fl rfl)
  is _ := (hpop.is rfl).trans (hpush.is rfl)
  ie _ := (hpop.ie rfl).trans (hpush.ie rfl)
  run _ := (hpop.run rfl).trans (hpush.run rfl)
  err _ := (hpop.err rfl).trans (hpush.err rfl)
  out _ := (hpop.out rfl).trans (hpush.out rfl)

/-- Settles O39: RET pops the return address CALL pushed, whose low byte is pc0 + 2 itself up to 253 and 0 at 254. -/
theorem callThenRetReturns : Obligations.CallThenRetReturns := by
  intro a ha s hwf
  obtain ⟨t, hcall, htsp, hslot, hstored, -, -, hpush⟩ := callPushesReturnAddress a ha s
  obtain ⟨u, hret, hpc, husp, hpop⟩ := retPopsReturnAddress.1 t
  rw [htsp, ← hslot, hstored hwf] at hpc
  rw [htsp, BitVec.sub_add_cancel] at husp
  refine ⟨t, u, hcall, hret, fun h => ?upTo253, fun h => ?at254, Frame.push_pop (rs := []) hpush hpop husp⟩
  case upTo253 =>
    have htwo : (2 : PcWord).toNat = 2 := rfl
    apply BitVec.eq_of_toNat_eq
    rw [hpc, BitVec.toNat_add]
    omega
  case at254 =>
    apply BitVec.eq_of_toNat_eq
    rw [hpc, h]
    rfl

/-- Settles O42: POP finds what PUSH stored, and SP comes back because neither operand is R7. -/
theorem pushThenPopCopies : Obligations.PushThenPopCopies := by
  intro a b ha hb s hwf
  obtain ⟨t, hexecPush, htsp, hslot, hstored, -, -, hpush⟩ := pushStoresRegister a (Nat.lt_succ_of_lt ha) s
  obtain ⟨u, hexecPop, hloaded, -, -, hpop⟩ := popLoadsRegister b (Nat.lt_succ_of_lt hb) t
  obtain ⟨hreg, husp⟩ := hloaded hb.ne
  rw [htsp, ← hslot, hstored hwf ha.ne] at hreg
  rw [htsp, BitVec.sub_add_cancel] at husp
  exact ⟨t, u, hexecPush, hexecPop, hreg, husp, Frame.push_pop (rs := [_]) hpush hpop husp⟩

/-! ### Output -/

theorem renderOut_append (out : List OutEvent) (e : OutEvent) : renderOut (out ++ [e]) = renderOut out ++ e.render := by
  rw [renderOut, List.flatMap_append, List.flatMap_singleton, ← renderOut]

/-- Settles O46: each is one event appended, and what is rendered is what was rendered and then the event. -/
theorem outputAppendsOneEvent : Obligations.OutputAppendsOneEvent := by
  refine fun a ha s => ⟨⟨_, exec_prn s ha, rfl, ?dec, rfl, Frame.emit_advance s _ 1⟩,
    ⟨_, exec_pra s ha, rfl, renderOut_append s.out _, rfl, Frame.emit_advance s _ 1⟩⟩
  case dec =>
    rw [List.append_assoc]
    exact renderOut_append s.out _

/-! ### HLT, INT and IRET -/

/-- Settles O48: HLT is one write of RUN and an advance by 1. -/
theorem hltHaltsAndAdvances : Obligations.HltHaltsAndAdvances :=
  fun s => ⟨_, exec_hlt s, rfl, rfl, Frame.halt_advance s 0⟩

theorem interruptBit_getLsbD (k : Byte) {j : Nat} (hj : j < 8) :
    (interruptBit k).getLsbD j = decide (j = k.toNat) := by
  by_cases hk : k.toNat ≤ 7
  · rw [interruptBit, if_pos hk, BitVec.getLsbD_ofNat, Nat.testBit_two_pow, decide_eq_true hj, Bool.true_and]
    exact decide_eq_decide.mpr eq_comm
  · have hne : j ≠ k.toNat := by omega
    rw [interruptBit, if_neg hk, decide_eq_false hne]
    exact BitVec.getLsbD_zero

theorem interruptBit_of_ge {k : Byte} (h : k.toNat ≥ 8) : interruptBit k = 0#8 := if_neg (Nat.not_le.mpr h)

/-- Settles O50: INT adds one bit to IS, and none from 8 on. -/
theorem intSetsOneStatusBit : Obligations.IntSetsOneStatusBit := by
  refine fun a ha s => ⟨_, exec_int s ha, fun j hj => ?bit, fun hk => ?none, rfl, Frame.orIS_advance s _ 1⟩
  case bit => rw [State.advance_is, State.orIS_is, BitVec.getLsbD_or, interruptBit_getLsbD _ hj]
  case none => rw [State.advance_is, State.orIS_is, interruptBit_of_ge hk, BitVec.or_zero]

theorem frameByte_eq_load8 (s : State) (k : Nat) : frameByte s k = s.load8 (s.sp + BitVec.ofNat 8 k) := by
  rw [frameByte, State.load8, BitVec.toNat_add, BitVec.toNat_ofNat, Nat.add_mod_mod]

/-- The mask of rule R26 keeps the remainder modulo 8. -/
theorem masked_toNat (v : Byte) : (v &&& 0x07 : Byte).toNat = v.toNat % 8 := by
  rw [BitVec.toNat_and]
  exact Nat.and_two_pow_sub_one_eq_mod v.toNat 3

/-- Settles O51: the closed form of the nine pops, field by field. -/
theorem iretRestoresTheFrame : Obligations.IretRestoresTheFrame := by
  refine fun s => ⟨_, exec_iret s, fun r hr => ?regs, ?fl, ?pc, ?sp, s.returnFromInterrupt_ie,
    Frame.returnFromInterrupt s⟩
  case regs => rw [s.reg_returnFromInterrupt r hr, frameByte_eq_load8]
  case fl =>
    rw [s.fl_returnFromInterrupt, masked_toNat, frameByte_eq_load8]
    rfl
  case pc =>
    rw [s.pc_returnFromInterrupt, pcOfByte_toNat, frameByte_eq_load8]
    rfl
  case sp =>
    rw [s.sp_returnFromInterrupt, BitVec.toNat_add]
    rfl

end Sys2Proof.Machine
end

section
/-!
PROOFS. Noninterference (rules R28, R29, R30, R268, R272): IS, IE and OUT are written and never read. A meaning is
blind to them when changing them beforehand changes nothing of its answer but their own starting values.
-/
namespace Sys2Proof.Machine

/-- `s` with other contents of IS, IE and OUT. -/
def State.withPort (s : State) (is : Byte) (ie : Bool) (out : List OutEvent) : State :=
  { s with is := is, ie := ie, out := out }

/-- At `s`, whatever IS, IE and OUT hold, `f` answers one next state with the same events appended, the same bits of IS
set, and IE set or left alone alike. -/
def Blind (s : State) (f : State → StepResult) : Prop :=
  ∃ (t : State) (events : List OutEvent) (bits : Byte) (enables : Bool),
    ∀ (is : Byte) (ie : Bool) (out : List OutEvent),
      f (s.withPort is ie out) = .next (t.withPort (is ||| bits) (ie || enables) (out ++ events))

section
variable {s : State} {f g : State → StepResult}

/-- Two meanings that agree on every such change of `s` are blind together. -/
theorem Blind.congr (h : Blind s g) (hfg : ∀ is ie out, f (s.withPort is ie out) = g (s.withPort is ie out)) :
    Blind s f := by
  obtain ⟨t, events, bits, enables, hg⟩ := h
  exact ⟨t, events, bits, enables, fun is ie out => (hfg is ie out).trans (hg is ie out)⟩

/-- An update that commutes with the change. -/
theorem Blind.of_commute {u : State → State}
    (h : ∀ is ie out, u (s.withPort is ie out) = (u s).withPort is ie out) : Blind s fun x => .next (u x) := by
  refine ⟨u s, [], 0#8, false, fun is ie out => ?_⟩
  dsimp only
  rw [h, BitVec.or_zero, Bool.or_false, List.append_nil]

theorem Blind.failed (s : State) (c : BitVec 3) : Blind s fun x => .next (x.failed c) :=
  Blind.of_commute fun _ _ _ => rfl

/-! ### The operand forms -/

theorem Blind.withReg {r : RegOperand} {u : State → RegId → State} (h : ∀ a, Blind s fun x => .next (u x a)) :
    Blind s fun x => withReg r x fun a => .ok (u x a) := by
  by_cases hr : r.toNat < 8
  · exact (h ⟨r.toNat, hr⟩).congr fun _ _ _ => withReg_ok hr _ _
  · exact (Blind.failed s 2).congr fun _ _ _ => withReg_bad hr _ _

theorem Blind.withRegReg {r q : RegOperand} {u : State → RegId → RegId → State}
    (h : ∀ a b, Blind s fun x => .next (u x a b)) : Blind s fun x => withRegReg r q x fun a b => .ok (u x a b) := by
  by_cases hrq : r.toNat < 8 ∧ q.toNat < 8
  · exact (h ⟨r.toNat, hrq.1⟩ ⟨q.toNat, hrq.2⟩).congr fun _ _ _ => withRegReg_ok hrq.1 hrq.2 _ _
  · exact (Blind.failed s 2).congr fun _ _ _ => withRegReg_bad hrq _ _

/-- The application of an ALU result and the advance, in each of the three cases of the result. -/
theorem Blind.applyAlu (r : AluResult) (d : RegId) (n : Nat) :
    Blind s fun x => settle x ((applyAlu r d x).map (State.advance n)) := by
  cases r with
  | byte v => exact Blind.of_commute (u := fun x => (x.setReg d v).advance n) fun _ _ _ => rfl
  | flags c => exact Blind.of_commute (u := fun x => (x.setFL (c.setWidth 8)).advance n) fun _ _ _ => rfl
  | divideByZero => exact Blind.failed s 3

/-- The sources are general registers, so the result is one for all these states. -/
theorem Blind.aluRegReg (op : AluOp) (r q : RegOperand) : Blind s (Machine.aluRegReg op r q) := by
  by_cases hrq : r.toNat < 8 ∧ q.toNat < 8
  · obtain ⟨hr, hq⟩ := hrq
    exact (Blind.applyAlu (aluApply op (s.reg ⟨_, hr⟩) (s.reg ⟨_, hq⟩)) ⟨_, hr⟩ 2).congr
      fun _ _ _ => withRegReg_ok hr hq _ _
  · exact (Blind.failed s 2).congr fun _ _ _ => withRegReg_bad hrq _ _

theorem Blind.aluReg (op : AluOp) (r : RegOperand) : Blind s (Machine.aluReg op r) := by
  by_cases hr : r.toNat < 8
  · exact (Blind.applyAlu (aluApply op (s.reg ⟨_, hr⟩) 0) ⟨_, hr⟩ 1).congr fun _ _ _ => withReg_ok hr _ _
  · exact (Blind.failed s 2).congr fun _ _ _ => withReg_bad hr _ _

theorem Blind.jumpIf (c : Cond) (r : RegOperand) : Blind s (Machine.jumpIf c r) := by
  refine Blind.withReg fun a => Blind.of_commute fun is ie out => ?_
  have hflags : (s.withPort is ie out).flags = s.flags := rfl
  rw [hflags]
  split <;> rfl

/-! ### The instructions that write IS, IE or OUT -/

theorem Blind.emit_advance (e : OutEvent) (n : Nat) : Blind s fun x => .next ((x.emit e).advance n) :=
  ⟨s.advance n, [e], 0#8, false, fun is ie out => by rw [BitVec.or_zero, Bool.or_false]; rfl⟩

theorem Blind.orIS_advance (b : Byte) (n : Nat) : Blind s fun x => .next ((x.orIS b).advance n) :=
  ⟨s.advance n, [], b, false, fun is ie out => by rw [Bool.or_false, List.append_nil]; rfl⟩

/-- Each pop of the frame reads and writes registers, FL and pc alone. -/
theorem State.returnFromInterrupt_withPort (s : State) (is : Byte) (ie : Bool) (out : List OutEvent) :
    (s.withPort is ie out).returnFromInterrupt = s.returnFromInterrupt.withPort is true out := by
  have hpopReg (x : State) (r : RegId) : (x.withPort is ie out).popReg r = (x.popReg r).withPort is ie out := rfl
  have hpopFL (x : State) : (x.withPort is ie out).popFL = x.popFL.withPort is ie out := rfl
  have hpopPc (x : State) : (x.withPort is ie out).popPc = x.popPc.withPort is ie out := rfl
  have henable (x : State) : (x.withPort is ie out).enableIE = x.enableIE.withPort is true out := rfl
  simp only [State.returnFromInterrupt, hpopReg, hpopFL, hpopPc, henable]

theorem Blind.returnFromInterrupt : Blind s fun x => .next x.returnFromInterrupt := by
  refine ⟨s.returnFromInterrupt, [], 0#8, true, fun is ie out => ?_⟩
  dsimp only
  rw [State.returnFromInterrupt_withPort, BitVec.or_zero, Bool.or_true, List.append_nil]

end

/-! ### Every instruction and every step request -/

theorem exec_blind (i : Instr) (s : State) : Blind s (exec i) := by
  cases i with
  | add a b | sub a b | mul a b | div a b | mod a b | and a b | or a b | xor a b | cmp a b =>
    exact Blind.aluRegReg _ a b
  | inc r | dec r | not r => exact Blind.aluReg _ r
  | jmp r | jeq r | jne r | jgt r | jlt r => exact Blind.jumpIf _ r
  | ldi a imm => exact Blind.withReg fun _ => Blind.of_commute fun _ _ _ => rfl
  | call r | push r | pop r => exact Blind.withReg fun _ => Blind.of_commute fun _ _ _ => rfl
  | ld a b | st a b => exact Blind.withRegReg fun _ _ => Blind.of_commute fun _ _ _ => rfl
  | ret => exact Blind.of_commute (u := State.popPc) fun _ _ _ => rfl
  | hlt => exact Blind.of_commute (u := fun x => x.halt.advance 0) fun _ _ _ => rfl
  | nop => exact Blind.of_commute (u := State.advance 0) fun _ _ _ => rfl
  | prn r => exact Blind.withReg fun a => (Blind.emit_advance (.dec (s.reg a)) 1).congr fun _ _ _ => rfl
  | pra r => exact Blind.withReg fun a => (Blind.emit_advance (.chr (s.reg a)) 1).congr fun _ _ _ => rfl
  | int r =>
    exact Blind.withReg fun a => (Blind.orIS_advance (interruptBit (s.reg a)) 1).congr fun _ _ _ => rfl
  | iret => exact Blind.returnFromInterrupt

theorem fetchInstr_withPort (m : OpcodeMap) (s : State) (is : Byte) (ie : Bool) (out : List OutEvent) :
    fetchInstr m (s.withPort is ie out) = fetchInstr m s := rfl

theorem cycle_blind (m : OpcodeMap) (s : State) : Blind s (cycle m) := by
  cases hrun : s.run with
  | halted => exact (Blind.of_commute (u := id) fun _ _ _ => rfl).congr fun _ _ _ => cycle_halted m hrun
  | running =>
    cases hi : fetchInstr m s with
    | error e => exact (Blind.failed s e.code).congr fun _ _ _ => cycle_error hrun hi
    | ok i => exact (exec_blind i s).congr fun _ _ _ => cycle_ok hrun hi

/-- Settles O53: the step request is blind to IS, IE and OUT. -/
theorem interruptAndOutputStateIsNeverRead : Obligations.InterruptAndOutputStateIsNeverRead :=
  cycle_blind

end Sys2Proof.Machine
end
